-- ==== Sys2Proof/Word.lean ====
section
/-! DEFINITION. The word types of the CORE (00_scope.md section 3): `u8`, `u16`, and the indices of registers and keys. -/

namespace Sys2Proof

/-- `u8`: an unsigned 8-bit value (00_scope.md section 3). -/
abbrev Byte := BitVec 8

/-- `u16`: an unsigned 16-bit value (00_scope.md section 3): I, pc, a stack entry, an instruction word. -/
abbrev Word := BitVec 16

/-- The index of a general register V0..VF: a 4-bit field, always 0..15 (R20). -/
abbrev Reg := Fin 16

/-- The index of a key of the keypad, 0..15 (R31). -/
abbrev Key := Fin 16

/-- VF = V[15], the flag register (R21). -/
abbrev regF : Reg := 15

end Sys2Proof
end

