-- ==== Sys2Proof/Syntax.lean ====
section
/-! DEFINITION. The 28 instructions of rule R74, one constructor per row of spec/opcode_table.json, in its order.
Operands stand as rule R71 extends them: x and y as register indices, kk as a byte, nnn zero-extended to 16 bits,
n as a natural number. WellFormed.lean says that nnn and n fit their fields (log entry 26). -/

namespace Sys2Proof

/-- An instruction of the CORE (R4, R74). -/
inductive Instr where
  /-- 00E0 `CLS` (R171). -/
  | cls
  /-- 00EE `RET` (R100). -/
  | ret
  /-- 1nnn `JP nnn` (R101). -/
  | jp (nnn : Word)
  /-- 2nnn `CALL nnn` (R102). -/
  | call (nnn : Word)
  /-- 3xkk `SE Vx, kk` (R103). -/
  | seVxKk (x : Reg) (kk : Byte)
  /-- 4xkk `SNE Vx, kk` (R104). -/
  | sneVxKk (x : Reg) (kk : Byte)
  /-- 6xkk `LD Vx, kk` (R122). -/
  | ldVxKk (x : Reg) (kk : Byte)
  /-- 7xkk `ADD Vx, kk` (R123). -/
  | addVxKk (x : Reg) (kk : Byte)
  /-- 8xy0 `LD Vx, Vy` (R124). -/
  | ldVxVy (x y : Reg)
  /-- 8xy1 `OR Vx, Vy` (R125). -/
  | orVxVy (x y : Reg)
  /-- 8xy2 `AND Vx, Vy` (R126). -/
  | andVxVy (x y : Reg)
  /-- 8xy3 `XOR Vx, Vy` (R127). -/
  | xorVxVy (x y : Reg)
  /-- 8xy4 `ADD Vx, Vy` (R128). -/
  | addVxVy (x y : Reg)
  /-- 8xy5 `SUB Vx, Vy` (R129). -/
  | subVxVy (x y : Reg)
  /-- 8xy6 `SHR Vx, Vy` (R130); y is decoded and kept, and not used. -/
  | shrVxVy (x y : Reg)
  /-- Annn `LD I, nnn` (R151). -/
  | ldI (nnn : Word)
  /-- Cxkk `RND Vx, kk` (R131). -/
  | rnd (x : Reg) (kk : Byte)
  /-- Dxyn `DRW Vx, Vy, n` (R172). -/
  | drw (x y : Reg) (n : Nat)
  /-- Ex9E `SKP Vx` (R191). -/
  | skp (x : Reg)
  /-- ExA1 `SKNP Vx` (R192). -/
  | sknp (x : Reg)
  /-- Fx07 `LD Vx, DT` (R193). -/
  | ldVxDt (x : Reg)
  /-- Fx0A `LD Vx, K` (R194). -/
  | ldVxK (x : Reg)
  /-- Fx15 `LD DT, Vx` (R195). -/
  | ldDtVx (x : Reg)
  /-- Fx18 `LD ST, Vx` (R196). -/
  | ldStVx (x : Reg)
  /-- Fx1E `ADD I, Vx` (R152). -/
  | addIVx (x : Reg)
  /-- Fx29 `LD F, Vx` (R153). -/
  | ldFVx (x : Reg)
  /-- Fx33 `LD B, Vx` (R154). -/
  | ldBVx (x : Reg)
  /-- Fx65 `LD Vx, [I]` (R155). -/
  | ldVxMem (x : Reg)
  deriving DecidableEq, Repr

end Sys2Proof
end

