-- ==== Sys2Proof/WellFormed.lean ====
section
/-! DEFINITION. Which instruction terms have an encoding: their operands fit the fields of rule R71. -/

namespace Sys2Proof

/-- `nnn` is a 12-bit field (R71). -/
abbrev fitsNnn (nnn : Word) : Bool := decide (nnn.toNat < 0x1000)

/-- `n` is a 4-bit field (R71). -/
abbrev fitsN (n : Nat) : Bool := decide (n < 16)

/-- Every operand fits its field. Register indices and bytes fit by their types. -/
def Instr.wellFormed : Instr → Bool
  | .jp nnn => fitsNnn nnn
  | .call nnn => fitsNnn nnn
  | .ldI nnn => fitsNnn nnn
  | .drw _ _ n => fitsN n
  | .cls | .ret => true
  | .seVxKk _ _ | .sneVxKk _ _ | .ldVxKk _ _ | .addVxKk _ _ | .rnd _ _ => true
  | .ldVxVy _ _ | .orVxVy _ _ | .andVxVy _ _ | .xorVxVy _ _ => true
  | .addVxVy _ _ | .subVxVy _ _ | .shrVxVy _ _ => true
  | .skp _ | .sknp _ | .ldVxDt _ | .ldVxK _ | .ldDtVx _ | .ldStVx _ => true
  | .addIVx _ | .ldFVx _ | .ldBVx _ | .ldVxMem _ => true

end Sys2Proof
end

