-- ==== Sys2Proof/Decode.lean ====
section
/-! DEFINITION. Decoding and encoding (30_encoding.md): the fields of a word (R70, R71), the nibble-pattern decoder
(R74, R76), total on any bytes, the encoder written from the same table, and the table itself as mask and match. -/

namespace Sys2Proof

/-- Why bytes hold no instruction. -/
inductive DecodeError where
  /-- The word matches no row of rule R74 (R76). -/
  | illegalWord (w : Word)
  /-- Fewer than the two bytes of an instruction word (R73). -/
  | tooShort
  deriving DecidableEq, Repr

/-- `n1 = w[15:12]` (R70). -/
def nibble1 (w : Word) : BitVec 4 := w.extractLsb' 12 4
/-- `n2 = w[11:8]` (R70). -/
def nibble2 (w : Word) : BitVec 4 := w.extractLsb' 8 4
/-- `n3 = w[7:4]` (R70). -/
def nibble3 (w : Word) : BitVec 4 := w.extractLsb' 4 4
/-- `n4 = w[3:0]` (R70). -/
def nibble4 (w : Word) : BitVec 4 := w.extractLsb' 0 4

/-- A nibble as a register index: no extension, used as an index (R71). -/
def regOf (b : BitVec 4) : Reg := ⟨b.toNat, b.isLt⟩

/-- Field `x` (R71). -/
def fieldX (w : Word) : Reg := regOf (nibble2 w)
/-- Field `y` (R71). -/
def fieldY (w : Word) : Reg := regOf (nibble3 w)
/-- Field `n`, zero-extended to a natural number (R71). -/
def fieldN (w : Word) : Nat := (nibble4 w).toNat
/-- Field `kk = w[7:0]` (R71). -/
def fieldKk (w : Word) : Byte := w.extractLsb' 0 8
/-- Field `nnn = w[11:0]`, zero-extended to 16 bits (R71). -/
def fieldNnn (w : Word) : Word := (w.extractLsb' 0 12).setWidth 16

/-- The 0 group: 00E0 and 00EE only (R74, R76). -/
def decodeGroup0 (w : Word) : Except DecodeError Instr :=
  if w = 0x00E0#16 then .ok .cls
  else if w = 0x00EE#16 then .ok .ret
  else .error (.illegalWord w)

/-- The 8 group: n4 is the sub-opcode (R74). -/
def decodeGroup8 (w : Word) : Except DecodeError Instr :=
  if nibble4 w = 0x0#4 then .ok (.ldVxVy (fieldX w) (fieldY w))
  else if nibble4 w = 0x1#4 then .ok (.orVxVy (fieldX w) (fieldY w))
  else if nibble4 w = 0x2#4 then .ok (.andVxVy (fieldX w) (fieldY w))
  else if nibble4 w = 0x3#4 then .ok (.xorVxVy (fieldX w) (fieldY w))
  else if nibble4 w = 0x4#4 then .ok (.addVxVy (fieldX w) (fieldY w))
  else if nibble4 w = 0x5#4 then .ok (.subVxVy (fieldX w) (fieldY w))
  else if nibble4 w = 0x6#4 then .ok (.shrVxVy (fieldX w) (fieldY w))
  else .error (.illegalWord w)

/-- The E group: the low byte is the sub-opcode (R74). -/
def decodeGroupE (w : Word) : Except DecodeError Instr :=
  if fieldKk w = 0x9E#8 then .ok (.skp (fieldX w))
  else if fieldKk w = 0xA1#8 then .ok (.sknp (fieldX w))
  else .error (.illegalWord w)

/-- The F group: the low byte is the sub-opcode (R74). -/
def decodeGroupF (w : Word) : Except DecodeError Instr :=
  if fieldKk w = 0x07#8 then .ok (.ldVxDt (fieldX w))
  else if fieldKk w = 0x0A#8 then .ok (.ldVxK (fieldX w))
  else if fieldKk w = 0x15#8 then .ok (.ldDtVx (fieldX w))
  else if fieldKk w = 0x18#8 then .ok (.ldStVx (fieldX w))
  else if fieldKk w = 0x1E#8 then .ok (.addIVx (fieldX w))
  else if fieldKk w = 0x29#8 then .ok (.ldFVx (fieldX w))
  else if fieldKk w = 0x33#8 then .ok (.ldBVx (fieldX w))
  else if fieldKk w = 0x65#8 then .ok (.ldVxMem (fieldX w))
  else .error (.illegalWord w)

/-- Decode one instruction word by its nibble pattern; every other word is illegal, by name (R74, R76, R77). -/
def decodeWord (w : Word) : Except DecodeError Instr :=
  if nibble1 w = 0x0#4 then decodeGroup0 w
  else if nibble1 w = 0x1#4 then .ok (.jp (fieldNnn w))
  else if nibble1 w = 0x2#4 then .ok (.call (fieldNnn w))
  else if nibble1 w = 0x3#4 then .ok (.seVxKk (fieldX w) (fieldKk w))
  else if nibble1 w = 0x4#4 then .ok (.sneVxKk (fieldX w) (fieldKk w))
  else if nibble1 w = 0x6#4 then .ok (.ldVxKk (fieldX w) (fieldKk w))
  else if nibble1 w = 0x7#4 then .ok (.addVxKk (fieldX w) (fieldKk w))
  else if nibble1 w = 0x8#4 then decodeGroup8 w
  else if nibble1 w = 0xA#4 then .ok (.ldI (fieldNnn w))
  else if nibble1 w = 0xC#4 then .ok (.rnd (fieldX w) (fieldKk w))
  else if nibble1 w = 0xD#4 then .ok (.drw (fieldX w) (fieldY w) (fieldN w))
  else if nibble1 w = 0xE#4 then decodeGroupE w
  else if nibble1 w = 0xF#4 then decodeGroupF w
  else .error (.illegalWord w)

/-- Two bytes as a big-endian word, high byte first (R55): `hi * 256 + lo`. -/
def wordOfBytes (hi lo : Byte) : Word := BitVec.ofNat 16 (hi.toNat * 256 + lo.toNat)

/-- The high byte of a word, the one at the lower address (R55). -/
def highByte (w : Word) : Byte := BitVec.ofNat 8 (w.toNat / 256)
/-- The low byte of a word, the one at the higher address (R55). -/
def lowByte (w : Word) : Byte := BitVec.ofNat 8 w.toNat

/-- Decode the first instruction of a list of bytes and give the bytes after it. Total on any bytes. -/
def decode : List Byte → Except DecodeError (Instr × List Byte)
  | hi :: lo :: rest =>
    match decodeWord (wordOfBytes hi lo) with
    | .ok i => .ok (i, rest)
    | .error e => .error e
  | _ => .error .tooShort

/-- A word with leading nibble `op` and a 12-bit operand (format ADDR of R72). -/
def encodeAddr (op : Nat) (nnn : Word) : Word := BitVec.ofNat 16 (op * 0x1000 + nnn.toNat % 0x1000)
/-- A word with leading nibble `op`, a register and a low byte (formats XKK and X of R72). -/
def encodeXKk (op : Nat) (x : Reg) (kk : Nat) : Word := BitVec.ofNat 16 (op * 0x1000 + x.val * 0x100 + kk)
/-- A word with leading nibble `op`, two registers and a low nibble (formats XY and XYN of R72). -/
def encodeXYN (op : Nat) (x y : Reg) (n : Nat) : Word :=
  BitVec.ofNat 16 (op * 0x1000 + x.val * 0x100 + y.val * 0x10 + n % 16)

/-- The instruction word of an instruction, from the patterns of rule R74. -/
def encode : Instr → Word
  | .cls => 0x00E0#16
  | .ret => 0x00EE#16
  | .jp nnn => encodeAddr 0x1 nnn
  | .call nnn => encodeAddr 0x2 nnn
  | .seVxKk x kk => encodeXKk 0x3 x kk.toNat
  | .sneVxKk x kk => encodeXKk 0x4 x kk.toNat
  | .ldVxKk x kk => encodeXKk 0x6 x kk.toNat
  | .addVxKk x kk => encodeXKk 0x7 x kk.toNat
  | .ldVxVy x y => encodeXYN 0x8 x y 0x0
  | .orVxVy x y => encodeXYN 0x8 x y 0x1
  | .andVxVy x y => encodeXYN 0x8 x y 0x2
  | .xorVxVy x y => encodeXYN 0x8 x y 0x3
  | .addVxVy x y => encodeXYN 0x8 x y 0x4
  | .subVxVy x y => encodeXYN 0x8 x y 0x5
  | .shrVxVy x y => encodeXYN 0x8 x y 0x6
  | .ldI nnn => encodeAddr 0xA nnn
  | .rnd x kk => encodeXKk 0xC x kk.toNat
  | .drw x y n => encodeXYN 0xD x y n
  | .skp x => encodeXKk 0xE x 0x9E
  | .sknp x => encodeXKk 0xE x 0xA1
  | .ldVxDt x => encodeXKk 0xF x 0x07
  | .ldVxK x => encodeXKk 0xF x 0x0A
  | .ldDtVx x => encodeXKk 0xF x 0x15
  | .ldStVx x => encodeXKk 0xF x 0x18
  | .addIVx x => encodeXKk 0xF x 0x1E
  | .ldFVx x => encodeXKk 0xF x 0x29
  | .ldBVx x => encodeXKk 0xF x 0x33
  | .ldVxMem x => encodeXKk 0xF x 0x65

/-- One row of the decode table: a word selects it when `(w AND mask) = pattern` (R74, columns match and mask). -/
structure OpcodeRow where
  mnemonic : String
  pattern : Word
  mask : Word
  deriving DecidableEq, Repr

/-- `(w AND mask) = match` (R74). -/
def OpcodeRow.selects (r : OpcodeRow) (w : Word) : Bool := w &&& r.mask == r.pattern

/-- The row of rule R74 an instruction belongs to, its mnemonic as spec/opcode_table.json spells it. -/
def opcodeRow : Instr → OpcodeRow
  | .cls => ⟨"CLS", 0x00E0, 0xFFFF⟩
  | .ret => ⟨"RET", 0x00EE, 0xFFFF⟩
  | .jp _ => ⟨"JP_nnn", 0x1000, 0xF000⟩
  | .call _ => ⟨"CALL_nnn", 0x2000, 0xF000⟩
  | .seVxKk _ _ => ⟨"SE_Vx__kk", 0x3000, 0xF000⟩
  | .sneVxKk _ _ => ⟨"SNE_Vx__kk", 0x4000, 0xF000⟩
  | .ldVxKk _ _ => ⟨"LD_Vx__kk", 0x6000, 0xF000⟩
  | .addVxKk _ _ => ⟨"ADD_Vx__kk", 0x7000, 0xF000⟩
  | .ldVxVy _ _ => ⟨"LD_Vx__Vy", 0x8000, 0xF00F⟩
  | .orVxVy _ _ => ⟨"OR_Vx__Vy", 0x8001, 0xF00F⟩
  | .andVxVy _ _ => ⟨"AND_Vx__Vy", 0x8002, 0xF00F⟩
  | .xorVxVy _ _ => ⟨"XOR_Vx__Vy", 0x8003, 0xF00F⟩
  | .addVxVy _ _ => ⟨"ADD_Vx__Vy", 0x8004, 0xF00F⟩
  | .subVxVy _ _ => ⟨"SUB_Vx__Vy", 0x8005, 0xF00F⟩
  | .shrVxVy _ _ => ⟨"SHR_Vx__Vy", 0x8006, 0xF00F⟩
  | .ldI _ => ⟨"LD_I__nnn", 0xA000, 0xF000⟩
  | .rnd _ _ => ⟨"RND_Vx__kk", 0xC000, 0xF000⟩
  | .drw _ _ _ => ⟨"DRW_Vx__Vy__n", 0xD000, 0xF000⟩
  | .skp _ => ⟨"SKP_Vx", 0xE09E, 0xF0FF⟩
  | .sknp _ => ⟨"SKNP_Vx", 0xE0A1, 0xF0FF⟩
  | .ldVxDt _ => ⟨"LD_Vx__DT", 0xF007, 0xF0FF⟩
  | .ldVxK _ => ⟨"LD_Vx__K", 0xF00A, 0xF0FF⟩
  | .ldDtVx _ => ⟨"LD_DT__Vx", 0xF015, 0xF0FF⟩
  | .ldStVx _ => ⟨"LD_ST__Vx", 0xF018, 0xF0FF⟩
  | .addIVx _ => ⟨"ADD_I__Vx", 0xF01E, 0xF0FF⟩
  | .ldFVx _ => ⟨"LD_F__Vx", 0xF029, 0xF0FF⟩
  | .ldBVx _ => ⟨"LD_B__Vx", 0xF033, 0xF0FF⟩
  | .ldVxMem _ => ⟨"LD_Vx___I", 0xF065, 0xF0FF⟩

/-- One instruction of each of rows 1 to 8, the operands zero. -/
def samples1to8 : List Instr :=
  [.cls, .ret, .jp 0, .call 0, .seVxKk 0 0, .sneVxKk 0 0, .ldVxKk 0 0, .addVxKk 0 0]
/-- One instruction of each of rows 9 to 15. -/
def samples9to15 : List Instr :=
  [.ldVxVy 0 0, .orVxVy 0 0, .andVxVy 0 0, .xorVxVy 0 0, .addVxVy 0 0, .subVxVy 0 0, .shrVxVy 0 0]
/-- One instruction of each of rows 16 to 20. -/
def samples16to20 : List Instr := [.ldI 0, .rnd 0 0, .drw 0 0 0, .skp 0, .sknp 0]
/-- One instruction of each of rows 21 to 28. -/
def samples21to28 : List Instr :=
  [.ldVxDt 0, .ldVxK 0, .ldDtVx 0, .ldStVx 0, .addIVx 0, .ldFVx 0, .ldBVx 0, .ldVxMem 0]

/-- One instruction of every row, the operands zero. -/
def rowSamples : List Instr := samples1to8 ++ samples9to15 ++ samples16to20 ++ samples21to28

/-- The decode table of rule R74: its 28 rows, in the document's order. -/
def opcodeTable : List OpcodeRow := rowSamples.map opcodeRow

/-- The bytes of a table word (bit 0 the least significant), the high byte at the lower address (R55); bits at and
above `nbits` are zero. -/
def tableBytes (nbits w : Nat) : List Byte :=
  let v : Word := BitVec.ofNat 16 (w % 2 ^ nbits)
  [highByte v, lowByte v]

/-- The instruction the decoder reads from a table word laid out in memory order. -/
def decodeTableWord (nbits w : Nat) : Option Instr :=
  match decode (tableBytes nbits w) with
  | .ok (i, _) => some i
  | .error _ => none

end Sys2Proof
end

