-- ==== Sys2Proof/Config.lean ====
section
/-! DEFINITION. The implementation parameters of rule R5 and the free values of the model (R131, R194). -/

namespace Sys2Proof

/-- `MEM_SIZE` (R5, R50): 4092 bytes, addresses 0..4091. -/
abbrev memSize : Nat := 4092

/-- `ROM_ORIGIN` (R5, R58): the program's load and entry address. -/
abbrev romOrigin : Nat := 0x200

/-- `FONT_BASE` (R5, R58): where the glyph table starts. -/
abbrev fontBase : Nat := 0x000

/-- `GLYPH_STRIDE` (R5): bytes per glyph. -/
abbrev glyphStride : Nat := 5

/-- `CALL_MODE` (R5, R102): what 2nnn does after the jump. -/
inductive CallMode where
  | nestedOneLevel
  | nestedRecursive
  | flat
  deriving DecidableEq, Repr

/-- `FLAG_ALIAS_MODE` (R5, R121): 8xy5 and 8xy6 when an operand is VF. -/
inductive FlagAliasMode where
  | sequential
  | refuse
  deriving DecidableEq, Repr

/-- The OPEN parameters of rule R5 that a Step consults. DESIGN CHOICE (log entry 2): they stand in the state as
plain data that nothing writes, so a statement over all states is a statement over all parameter values. -/
structure Params where
  /-- `CALL_MODE`. -/
  callMode : CallMode
  /-- `FLAG_ALIAS_MODE`. -/
  flagAliasMode : FlagAliasMode
  /-- The inclusive upper bound of `RAND_RANGE` = {0..randLast} (R131: 255 by default, 254 the alternative). -/
  randLast : Byte
  deriving DecidableEq, Repr

/-- FREE VALUE (R131, log entry 3): the raw random byte of the n-th draw. It has no body: nothing in Lean knows a
value of it, so a statement about Cxkk holds for every random byte. -/
opaque Config.randomByte : Nat → Byte

/-- FREE VALUE (R194, log entry 4): which of several pressed keys the n-th draw takes. No body, as above. -/
opaque Config.keyChoice : Nat → Nat

end Sys2Proof
end

