-- ==== Sys2Proof/Machine/Defaults.lean ====
section
/-! DEFINITION. The default values of the OPEN parameters of rule R5. -/

namespace Sys2Proof.Machine

/-- The defaults of rule R5: `nested_one_level` (D4), `sequential` (D6), RAND_RANGE = {0..255} (D3). -/
def defaultParams : Params :=
  { callMode := .nestedOneLevel, flagAliasMode := .sequential, randLast := 255 }

/-- Glyphs 0 to 3 of rule R241. -/
def font0to3 : List Byte :=
  [0xF0, 0x90, 0x90, 0x90, 0xF0,  0x20, 0x60, 0x20, 0x20, 0x70,
   0xF0, 0x10, 0xF0, 0x80, 0xF0,  0xF0, 0x10, 0xF0, 0x10, 0xF0]
/-- Glyphs 4 to 7 of rule R241. -/
def font4to7 : List Byte :=
  [0x90, 0x90, 0xF0, 0x10, 0x10,  0xF0, 0x80, 0xF0, 0x10, 0xF0,
   0xF0, 0x80, 0xF0, 0x90, 0xF0,  0xF0, 0x10, 0x20, 0x40, 0x40]
/-- Glyphs 8 to B of rule R241. -/
def font8toB : List Byte :=
  [0xF0, 0x90, 0xF0, 0x90, 0xF0,  0xF0, 0x90, 0xF0, 0x10, 0xF0,
   0xF0, 0x90, 0xF0, 0x90, 0x90,  0xE0, 0x90, 0xE0, 0x90, 0xE0]
/-- Glyphs C to F of rule R241. -/
def fontCtoF : List Byte :=
  [0xF0, 0x80, 0x80, 0x80, 0xF0,  0xE0, 0x90, 0x90, 0x90, 0xE0,
   0xF0, 0x80, 0xF0, 0x80, 0xF0,  0xF0, 0x80, 0xF0, 0x80, 0x80]

/-- `FONT` (R241): the 80 glyph bytes, glyph d at address 5d. PRESUMED by the spec (decision D11, from general
knowledge): log entry 6. -/
def font : List Byte := font0to3 ++ font4to7 ++ font8toB ++ fontCtoF

end Sys2Proof.Machine
end

