-- ==== Sys2Proof/Machine/State.lean ====
section
/-! DEFINITION. The state record of 10_state.md section 1, the reasons a step can stop, and the state after
initialization (R35, R240). -/

namespace Sys2Proof.Machine

/-- Memory (R32, R50): the cells that differ from what an unlisted address reads as (`Memory.unlisted`), in rising
order of address (`Memory.wf`). -/
abbrev Memory := List Host.Cell

/-- The framebuffer FB[px][py] (R30): 64 columns of 32 one-bit pixels. -/
abbrev Screen := Vector (Vector Bool 32) 64

/-- The seven faults of rule R210. -/
inductive FaultCode where
  | fetchOutOfRange
  | illegalInstruction
  | stackUnderflow
  | memoryOutOfRange
  | keyIndexOutOfRange
  | glyphDigitOutOfRange
  | flagAliasRefused
  deriving DecidableEq, Repr

/-- The fault record of rule R211. -/
structure FaultRecord where
  code : FaultCode
  /-- The address of the faulting instruction. -/
  pc : Word
  /-- The faulting instruction word, none for FetchOutOfRange. -/
  w : Option Word
  /-- The value in the column "info recorded" of rule R210. -/
  info : Nat
  deriving DecidableEq, Repr

/-- Everything the spec gives the machine (10_state.md section 1), and the model's own fields `params` and `draws`. -/
structure State where
  /-- V0..VF (R20). -/
  v : Vector Byte 16
  /-- I (R23). -/
  index : Word
  /-- pc (R24). -/
  pc : Word
  /-- Stack, last element on top (R27). -/
  stack : List Word
  /-- DT (R28). -/
  dt : Byte
  /-- ST (R29). -/
  st : Byte
  /-- FB (R30). -/
  fb : Screen
  /-- Key (R31). -/
  keys : Vector Bool 16
  /-- Mem (R32). -/
  mem : Memory
  /-- fault (R33). -/
  fault : Option FaultRecord
  /-- The parameters of rule R5; nothing writes them (log entry 2). -/
  params : Params
  /-- How many free values have been drawn (log entries 3 and 4). -/
  draws : Nat
  deriving DecidableEq, Repr

/-- Why the machine stops. (A fault of rule R210 is not one of these: its entry, R212, is a next state.) -/
inductive Fault where
  /-- Raised by `step` in a state whose fault field is set: no Step is admitted (R33, R78, R215). Safe: it is what
  the spec says. -/
  | halted (r : FaultRecord)
  /-- Raised by CALL under `nested_recursive` when the chain of calls never ends: the Step has no result (R249).
  A stuck state. Safe: nothing can be proved of a next state. -/
  | endlessCallChain
  deriving DecidableEq, Repr

/-- What has no move in the model. -/
inductive Refusal where
  /-- Raised by `exec` for an instruction without a meaning; no arm of `exec` raises it. Safe. -/
  | notModelled (mnemonic : String)
  /-- Raised by a host operation other than Step on a faulted CORE (R215, R221). Safe. -/
  | coreFaulted (r : FaultRecord)
  /-- Raised by Load when it is not the first Load, or comes after a Step (R243). Safe. -/
  | loadNotAtLaunch
  /-- Raised by KeySet with an index outside 0..15: a host error (R222). Safe. -/
  | keyIndexNotAKey (i : Nat)
  deriving DecidableEq, Repr

/-- The outcome of a Step or of an instruction. -/
abbrev Result := Host.Outcome State Fault Refusal

/-- The state after Initialize with the default parameters (R35, R240). -/
def State.reset : State :=
  { v := Vector.replicate 16 0
    index := 0
    pc := 0x200
    stack := []
    dt := 0
    st := 0
    fb := Vector.replicate 64 (Vector.replicate 32 false)
    keys := Vector.replicate 16 false
    mem := []
    fault := none
    params := defaultParams
    draws := 0 }

end Sys2Proof.Machine
end

