-- ==== Sys2Proof/Machine/Memory.lean ====
section
/-! DEFINITION. The memory as a list of cells in canonical form (20_memory.md). -/

namespace Sys2Proof.Machine

/-- What an unlisted address reads as: the contents after Initialize, FONT at 0x000..0x04F and zero above (R35,
R58). -/
def Memory.unlisted (a : Nat) : Byte := font.getD (a - fontBase) 0

/-- `Mem[a]`, no bounds check: the operations on State make it (R53). -/
def Memory.read : Memory → Nat → Byte
  | [], a => Memory.unlisted a
  | (k, b) :: m, a => if k = a then b else Memory.read m a

/-- A cell in front of a memory, unless it says what the address reads as anyway. -/
def Memory.cons (a : Nat) (b : Byte) (m : Memory) : Memory :=
  if b = Memory.unlisted a then m else (a, b) :: m

/-- `Mem[a] <- b`, no bounds check (R54), keeping the canonical form. -/
def Memory.write : Memory → Nat → Byte → Memory
  | [], a, b => Memory.cons a b []
  | (k, c) :: m, a, b =>
    if a < k then Memory.cons a b ((k, c) :: m)
    else if a = k then Memory.cons a b m
    else (k, c) :: Memory.write m a b

/-- Write a list of bytes in increasing address order (R60, R242). -/
def Memory.writeBytes (m : Memory) (a : Nat) : List Byte → Memory
  | [] => m
  | b :: bs => Memory.writeBytes (Memory.write m a b) (a + 1) bs

/-- Canonical form from address `lo` on. -/
def Memory.wfFrom (lo : Nat) : Memory → Bool
  | [] => true
  | (k, b) :: m =>
    decide (lo ≤ k) && decide (k < memSize) && decide (b ≠ Memory.unlisted k) && Memory.wfFrom (k + 1) m

/-- The canonical form: addresses strictly rising, all below MEM_SIZE, and no cell equal to what its address reads as
when unlisted. -/
def Memory.wf (m : Memory) : Bool := Memory.wfFrom 0 m

end Sys2Proof.Machine
end

