-- ==== Sys2Proof/Machine/Ops.lean ====
section
/-! DEFINITION. The named operations over the state: one read and one write per piece of state, the memory
primitives of 20_memory.md, the call stack, the advance of pc, and fault entry (60_exceptions.md R212), which every
faulting rule shares. There is no return from a fault (R215), so no operation stands beside it. -/

namespace Sys2Proof.Machine

/-- `V[x]` (R20). -/
def State.reg (s : State) (x : Reg) : Byte := s.v[x]
/-- `FB[px][py]` (R30). -/
def State.pixel (s : State) (px : Fin 64) (py : Fin 32) : Bool := (s.fb[px])[py]
/-- `Key[k]` (R31). -/
def State.key (s : State) (k : Key) : Bool := s.keys[k]

/-- `V[x] <- b` (R20): no register is hard-wired. -/
def State.setReg (s : State) (x : Reg) (b : Byte) : State := { s with v := s.v.set x b }
/-- `I <- a` (R23). -/
def State.setIndex (s : State) (a : Word) : State := { s with index := a }
/-- `pc <- a` (R24). -/
def State.setPc (s : State) (a : Word) : State := { s with pc := a }
/-- Replace the call stack (R27). -/
def State.setStack (s : State) (l : List Word) : State := { s with stack := l }
/-- `DT <- b` (R28). -/
def State.setDt (s : State) (b : Byte) : State := { s with dt := b }
/-- `ST <- b` (R29). -/
def State.setSt (s : State) (b : Byte) : State := { s with st := b }
/-- Replace the framebuffer (R30). -/
def State.setFb (s : State) (f : Screen) : State := { s with fb := f }
/-- `Key[k] <- p` (R31). -/
def State.setKey (s : State) (k : Key) (p : Bool) : State := { s with keys := s.keys.set k p }
/-- Replace the memory (R32). -/
def State.setMem (s : State) (m : Memory) : State := { s with mem := m }
/-- `fault <- r` (R33). -/
def State.setFault (s : State) (r : Option FaultRecord) : State := { s with fault := r }
/-- One free value more has been drawn (log entries 3 and 4). -/
def State.countDraw (s : State) : State := { s with draws := s.draws + 1 }

/-- `MemRead(a, 1)` (R53): the byte at an address, none where there is no memory (R52). -/
def State.byteAt (s : State) (a : Nat) : Option Byte :=
  if a < memSize then some (s.mem.read a) else none

/-- `Push(a)` (00_scope.md section 3, R27): never fails. -/
def State.push (s : State) (a : Word) : State := s.setStack (s.stack ++ [a])

/-- `pc <- pc + 2`, the ordinary advance (R80). -/
def State.advance (s : State) : State := s.setPc (s.pc + 2)

/-- `pc <- pc + 4` when the condition holds, else `pc <- pc + 2` (R80). -/
def State.skipIf (s : State) (c : Bool) : State := s.setPc (if c then s.pc + 4 else s.pc + 2)

/-- FAULT ENTRY (R211, R212): the faulting instruction writes nothing, the record goes into the fault field, and the
Step ends. Its report of failure is the fault field itself. -/
def State.raise (s : State) (code : FaultCode) (w : Option Word) (info : Nat) : Result :=
  .next (s.setFault (some { code := code, pc := s.pc, w := w, info := info }))

/-- Fault entry of an instruction: the record names its word (R211). -/
def State.raiseOn (s : State) (i : Instr) (code : FaultCode) (info : Nat) : Result :=
  s.raise code (some (encode i)) info

end Sys2Proof.Machine
end

