-- ==== Sys2Proof/Machine/Flags.lean ====
section
/-! DEFINITION. The values written to VF as a flag (R21). -/

namespace Sys2Proof.Machine

/-- A flag as the byte 1 or 0. -/
def flagByte (c : Bool) : Byte := if c then 1 else 0

/-- The carry of 8xy4 (R128): 1 when the exact sum is above 255. -/
def carryFlag (a b : Byte) : Byte := flagByte (decide (a.toNat + b.toNat > 255))

/-- NOT borrow of 8xy5 (R129): 0 when b > a, else 1. -/
def notBorrowFlag (a b : Byte) : Byte := flagByte (!decide (b.toNat > a.toNat))

/-- The bit 8xy6 shifts out (R130): a AND 1. -/
def shiftedOutFlag (a : Byte) : Byte := a &&& 1

/-- Whether FLAG_ALIAS_MODE refuses a flag-writing form whose operands include VF (R121). -/
def State.refusesAlias (s : State) (operandIsVf : Bool) : Bool :=
  decide (s.params.flagAliasMode = .refuse) && operandIsVf

end Sys2Proof.Machine
end

