-- ==== Sys2Proof/Machine/Operands.lean ====
section
/-! DEFINITION. The operand forms: the one data addressing mode with its bounds check (R150), sprite coordinates
(R172), key and glyph indices (R190, R153), BCD digits (R154), and the two free choices (R131, R194). -/

namespace Sys2Proof.Machine

/-- The effective addresses I, I+1, ..., I+count-1, unbounded natural numbers (R52, R150). -/
def State.span (s : State) (count : Nat) : List Nat := (List.range count).map (s.index.toNat + ·)

/-- The lowest effective address out of range, when there is one: the check made before any write (D21). -/
def State.spanFault (s : State) (count : Nat) : Option Nat := (s.span count).find? (fun a => memSize ≤ a)

/-- The bytes at I, I+1, ..., in the order read (R53); the error is the lowest address out of range. -/
def State.loadBytes (s : State) (count : Nat) : Except Nat (List Byte) :=
  match s.spanFault count with
  | some a => .error a
  | none => .ok ((s.span count).map s.mem.read)

/-- Store bytes at I, I+1, ..., in that order (R54), after checking every address; the error is the lowest address out of
range. -/
def State.storeBytes (s : State) (bs : List Byte) : Except Nat State :=
  match s.spanFault bs.length with
  | some a => .error a
  | none => .ok (s.setMem (s.mem.writeBytes s.index.toNat bs))

/-- The register value as a 4-bit index: a key (R190) or a glyph digit (R153); none when it is 16 or more. -/
def hexIndex (b : Byte) : Option (Fin 16) := if h : b.toNat < 16 then some ⟨b.toNat, h⟩ else none

/-- The address of the glyph of a digit (R153). -/
def glyphAddress (d : Fin 16) : Word := BitVec.ofNat 16 (fontBase + glyphStride * d.val)

/-- Hundreds, tens and units of a byte (R154). -/
def bcdDigits (b : Byte) : List Byte :=
  [BitVec.ofNat 8 (b.toNat / 100), BitVec.ofNat 8 (b.toNat / 10 % 10), BitVec.ofNat 8 (b.toNat % 10)]

/-- A raw random byte brought into RAND_RANGE = {0..last} (R131): every value of the range has a raw byte. -/
def randInRange (last raw : Byte) : Byte := BitVec.ofNat 8 (raw.toNat % (last.toNat + 1))

/-- The random byte the next Cxkk draws (R131): a free value of RAND_RANGE. -/
def State.randomDraw (s : State) : Byte := randInRange s.params.randLast (Config.randomByte s.draws)

/-- The pressed keys (R194). -/
def State.pressedKeys (s : State) : List Key := (List.finRange 16).filter (fun k => s.key k)

/-- One key of a non-empty list of pressed keys, by a free number (R194, D7): every key of the list has a number. -/
def chooseKey (k : Key) (ks : List Key) (n : Nat) : Key :=
  (k :: ks)[n % (k :: ks).length]'(Nat.mod_lt _ (by simp))

end Sys2Proof.Machine
end

