-- ==== Sys2Proof/Machine/Alu.lean ====
section
/-! DEFINITION. The ALU (41_alu.md): 6xkk, 7xkk, 8xy0 to 8xy6, Cxkk. Every one ends with pc <- pc + 2. -/

namespace Sys2Proof.Machine

/-- 6xkk `LD Vx, kk` (R122). -/
def execLdVxKk (x : Reg) (kk : Byte) (s : State) : Result := .next (s.setReg x kk).advance

/-- 7xkk `ADD Vx, kk` (R123): modulo 256, no flag. -/
def execAddVxKk (x : Reg) (kk : Byte) (s : State) : Result := .next (s.setReg x (s.reg x + kk)).advance

/-- 8xy0 `LD Vx, Vy` (R124). -/
def execLdVxVy (x y : Reg) (s : State) : Result := .next (s.setReg x (s.reg y)).advance

/-- 8xy1 `OR Vx, Vy` (R125): VF is not cleared. -/
def execOrVxVy (x y : Reg) (s : State) : Result := .next (s.setReg x (s.reg x ||| s.reg y)).advance

/-- 8xy2 `AND Vx, Vy` (R126). -/
def execAndVxVy (x y : Reg) (s : State) : Result := .next (s.setReg x (s.reg x &&& s.reg y)).advance

/-- 8xy3 `XOR Vx, Vy` (R127). -/
def execXorVxVy (x y : Reg) (s : State) : Result := .next (s.setReg x (s.reg x ^^^ s.reg y)).advance

/-- 8xy4 `ADD Vx, Vy` (R128): sum and carry are formed before either write; VF is written after Vx. -/
def execAddVxVy (x y : Reg) (s : State) : Result :=
  let a := s.reg x
  let b := s.reg y
  .next ((s.setReg x (a + b)).setReg regF (carryFlag a b)).advance

/-- The statements of rule R129 in their order: VF first, then Vx from the registers after that write. -/
def State.subThenFlag (s : State) (x y : Reg) : State :=
  let s1 := s.setReg regF (notBorrowFlag (s.reg x) (s.reg y))
  s1.setReg x (s1.reg x - s1.reg y)

/-- 8xy5 `SUB Vx, Vy` (R129): x or y = F is refused under `refuse` (R121). -/
def execSubVxVy (x y : Reg) (s : State) : Result :=
  if s.refusesAlias (x == regF || y == regF) then
    s.raiseOn (.subVxVy x y) .flagAliasRefused (encode (.subVxVy x y)).toNat
  else .next (s.subThenFlag x y).advance

/-- The statements of rule R130 in their order: VF first, then Vx from the registers after that write. -/
def State.shrThenFlag (s : State) (x : Reg) : State :=
  let s1 := s.setReg regF (shiftedOutFlag (s.reg x))
  s1.setReg x (s1.reg x >>> 1)

/-- 8xy6 `SHR Vx, Vy` (R130): y is not used; x = F is refused under `refuse` (R121). -/
def execShrVxVy (x y : Reg) (s : State) : Result :=
  if s.refusesAlias (x == regF) then
    s.raiseOn (.shrVxVy x y) .flagAliasRefused (encode (.shrVxVy x y)).toNat
  else .next (s.shrThenFlag x).advance

/-- Cxkk `RND Vx, kk` (R131): a free byte of RAND_RANGE, masked. -/
def execRnd (x : Reg) (kk : Byte) (s : State) : Result :=
  .next ((s.setReg x (s.randomDraw &&& kk)).countDraw).advance

end Sys2Proof.Machine
end

