-- ==== Sys2Proof/Machine/Control.lean ====
section
/-! DEFINITION. Control transfer but for CALL (40_control.md): 00EE, 1nnn, 3xkk, 4xkk, and the push and jump of a
call. -/

namespace Sys2Proof.Machine

/-- 00EE `RET` (R100): an empty stack raises StackUnderflow; else pc <- popped + 2 (D5). -/
def execRet (s : State) : Result :=
  match s.stack.getLast? with
  | none => s.raiseOn .ret .stackUnderflow (encode .ret).toNat
  | some r => .next ((s.setStack s.stack.dropLast).setPc (r + 2))

/-- 1nnn `JP nnn` (R101): no 2 is added (C3). -/
def execJp (nnn : Word) (s : State) : Result := .next (s.setPc nnn)

/-- The first two statements of rule R102: push the call's own address, pc <- nnn. -/
def State.enterCall (s : State) (nnn : Word) : State := (s.push s.pc).setPc nnn

/-- 3xkk `SE Vx, kk` (R103). -/
def execSeVxKk (x : Reg) (kk : Byte) (s : State) : Result := .next (s.skipIf (s.reg x == kk))

/-- 4xkk `SNE Vx, kk` (R104). -/
def execSneVxKk (x : Reg) (kk : Byte) (s : State) : Result := .next (s.skipIf (s.reg x != kk))

end Sys2Proof.Machine
end

