-- ==== Sys2Proof/Machine/Display.lean ====
section
/-! DEFINITION. The framebuffer instructions (43_display.md): 00E0, Dxyn. -/

namespace Sys2Proof.Machine

/-- Every pixel 0 (R171). -/
def Screen.clear : Screen := Vector.replicate 64 (Vector.replicate 32 false)

/-- `FB[px][py]` (R30). -/
def Screen.get (f : Screen) (px : Fin 64) (py : Fin 32) : Bool := (f[px])[py]

/-- `FB[px][py] <- FB[px][py] XOR 1` (R172). -/
def Screen.toggle (f : Screen) (px : Fin 64) (py : Fin 32) : Screen :=
  f.set px ((f[px]).set py (!f.get px py))

/-- The framebuffer and the variable `collided` of rule R172 while a sprite is drawn. -/
structure Drawing where
  fb : Screen
  collided : Bool
  deriving DecidableEq, Repr

/-- The column of rule R172: `(xc + c) mod 64`. -/
def wrapX (xc c : Nat) : Fin 64 := Fin.ofNat 64 (xc + c)
/-- The row of rule R172: `(yc + r) mod 32`. -/
def wrapY (yc r : Nat) : Fin 32 := Fin.ofNat 32 (yc + r)

/-- Sprite bit c of a row byte: bit 7 is column offset 0 (R170). PRESUMED by the spec (D12): log entry 9. -/
def spriteRowBit (b : Byte) (c : Nat) : Bool := b.getLsbD (7 - c)

/-- The body of rule R172's inner loop: sprite bit c of row r. -/
def Drawing.plot (d : Drawing) (xc yc r : Nat) (b : Byte) (c : Nat) : Drawing :=
  if spriteRowBit b c then
    { fb := d.fb.toggle (wrapX xc c) (wrapY yc r)
      collided := d.collided || d.fb.get (wrapX xc c) (wrapY yc r) }
  else d

/-- The inner loop of rule R172: c in 0..7. -/
def Drawing.row (d : Drawing) (xc yc r : Nat) (b : Byte) : Drawing :=
  (List.range 8).foldl (fun e c => e.plot xc yc r b c) d

/-- The outer loop of rule R172, from row r on, over the bytes read. -/
def Drawing.rows (d : Drawing) (xc yc r : Nat) : List Byte → Drawing
  | [] => d
  | b :: bs => (d.row xc yc r b).rows xc yc (r + 1) bs

/-- 00E0 `CLS` (R171): VF is unchanged. -/
def execCls (s : State) : Result := .next (s.setFb Screen.clear).advance

/-- The draw of rule R172 on the sprite bytes: coordinates read once at the start, VF written once at the end (D22). -/
def State.drawSprite (s : State) (x y : Reg) (bs : List Byte) : State :=
  let d := Drawing.rows { fb := s.fb, collided := false } ((s.reg x).toNat % 64) ((s.reg y).toNat % 32) 0 bs
  (s.setFb d.fb).setReg regF (flagByte d.collided)

/-- Dxyn `DRW Vx, Vy, n` (R172): all rows are checked before drawing (D21). -/
def execDrw (x y : Reg) (n : Nat) (s : State) : Result :=
  match s.loadBytes n with
  | .error a => s.raiseOn (.drw x y n) .memoryOutOfRange a
  | .ok bs => .next (s.drawSprite x y bs).advance

end Sys2Proof.Machine
end

