-- ==== Sys2Proof/Machine/Fetch.lean ====
section
/-! DEFINITION. Fetch (R79) and the part of Step and of a nested instruction that both share: fetch, decode, run
(R78, R102, R105). -/

namespace Sys2Proof.Machine

/-- `Fetch(pc)` (R79): big-endian, at any alignment, no effect; none when pc + 1 >= MEM_SIZE. -/
def State.fetch (s : State) : Option Word :=
  if memSize ≤ s.pc.toNat + 1 then none
  else some (wordOfBytes (s.mem.read s.pc.toNat) (s.mem.read (s.pc.toNat + 1)))

/-- Fetch the word at pc, decode it and run it: FetchOutOfRange when it cannot be fetched, IllegalInstruction when it
matches no row (R76, R78, R79, R214). `run` executes the instruction at its depth. -/
def fetchExecute (run : Instr → State → Result) (s : State) : Result :=
  match s.fetch with
  | none => s.raise .fetchOutOfRange none s.pc.toNat
  | some w =>
    match decodeWord w with
    | .error _ => s.raise .illegalInstruction (some w) w.toNat
    | .ok i => run i s

end Sys2Proof.Machine
end

