-- ==== Sys2Proof/Machine/IndexMemory.lean ====
section
/-! DEFINITION. The index register and memory instructions (42_index_memory.md): Annn, Fx1E, Fx29, Fx33, Fx65. -/

namespace Sys2Proof.Machine

/-- Annn `LD I, nnn` (R151). -/
def execLdI (nnn : Word) (s : State) : Result := .next (s.setIndex nnn).advance

/-- Fx1E `ADD I, Vx` (R152): modulo 65536, no flag (D9). -/
def execAddIVx (x : Reg) (s : State) : Result :=
  .next (s.setIndex (s.index + (s.reg x).setWidth 16)).advance

/-- Fx29 `LD F, Vx` (R153): 16 or more raises GlyphDigitOutOfRange (D1). -/
def execLdFVx (x : Reg) (s : State) : Result :=
  match hexIndex (s.reg x) with
  | none => s.raiseOn (.ldFVx x) .glyphDigitOutOfRange (s.reg x).toNat
  | some d => .next (s.setIndex (glyphAddress d)).advance

/-- Fx33 `LD B, Vx` (R154): hundreds, tens and units at I, I+1, I+2; all checked before the first write (D21). -/
def execLdBVx (x : Reg) (s : State) : Result :=
  match s.storeBytes (bcdDigits (s.reg x)) with
  | .error a => s.raiseOn (.ldBVx x) .memoryOutOfRange a
  | .ok t => .next t.advance

/-- Write bytes into Vk, Vk+1, ... (R155: `V[k] <- MemRead(I + k, 1)` for k in 0..x). -/
def State.setRegsFrom (s : State) (k : Nat) : List Byte → State
  | [] => s
  | b :: bs => (s.setReg (Fin.ofNat 16 k) b).setRegsFrom (k + 1) bs

/-- Fx65 `LD Vx, [I]` (R155): V0..Vx; all addresses checked first (D21); I is unchanged (D8). -/
def execLdVxMem (x : Reg) (s : State) : Result :=
  match s.loadBytes (x.val + 1) with
  | .error a => s.raiseOn (.ldVxMem x) .memoryOutOfRange a
  | .ok bs => .next (s.setRegsFrom 0 bs).advance

end Sys2Proof.Machine
end

