-- ==== Sys2Proof/Machine/KeysTimers.lean ====
section
/-! DEFINITION. The keypad and timer instructions (44_keys_timers.md): Ex9E, ExA1, Fx07, Fx0A, Fx15, Fx18. -/

namespace Sys2Proof.Machine

/-- Ex9E `SKP Vx` (R191): 16 or more raises KeyIndexOutOfRange (R190). -/
def execSkp (x : Reg) (s : State) : Result :=
  match hexIndex (s.reg x) with
  | none => s.raiseOn (.skp x) .keyIndexOutOfRange (s.reg x).toNat
  | some k => .next (s.skipIf (s.key k))

/-- ExA1 `SKNP Vx` (R192): 16 or more raises KeyIndexOutOfRange (R190). -/
def execSknp (x : Reg) (s : State) : Result :=
  match hexIndex (s.reg x) with
  | none => s.raiseOn (.sknp x) .keyIndexOutOfRange (s.reg x).toNat
  | some k => .next (s.skipIf (!s.key k))

/-- Fx07 `LD Vx, DT` (R193). -/
def execLdVxDt (x : Reg) (s : State) : Result := .next (s.setReg x s.dt).advance

/-- Fx0A `LD Vx, K` (R194): no key pressed is a completed Step with no effect; else any pressed key's index. -/
def execLdVxK (x : Reg) (s : State) : Result :=
  match s.pressedKeys with
  | [] => .next s
  | k :: ks =>
    .next ((s.setReg x (BitVec.ofNat 8 (chooseKey k ks (Config.keyChoice s.draws)).val)).countDraw).advance

/-- Fx15 `LD DT, Vx` (R195). -/
def execLdDtVx (x : Reg) (s : State) : Result := .next (s.setDt (s.reg x)).advance

/-- Fx18 `LD ST, Vx` (R196). -/
def execLdStVx (x : Reg) (s : State) : Result := .next (s.setSt (s.reg x)).advance

end Sys2Proof.Machine
end

