-- ==== Sys2Proof/Machine/Call.lean ====
section
/-! DEFINITION. 2nnn `CALL nnn` and its nested instruction (R102, R105, R249), in the three values of CALL_MODE. -/

namespace Sys2Proof.Machine

/-- Execute an instruction that does not nest: every row but 2nnn as at the top level, and 2nnn as a push and a
jump, which is what R102 gives it at depth 1 under `nested_one_level`, and at any depth under `flat`. -/
def execUnnested (i : Instr) (s : State) : Result :=
  match i with
  | .cls => execCls s
  | .ret => execRet s
  | .jp nnn => execJp nnn s
  | .call nnn => .next (s.enterCall nnn)
  | .seVxKk x kk => execSeVxKk x kk s
  | .sneVxKk x kk => execSneVxKk x kk s
  | .ldVxKk x kk => execLdVxKk x kk s
  | .addVxKk x kk => execAddVxKk x kk s
  | .ldVxVy x y => execLdVxVy x y s
  | .orVxVy x y => execOrVxVy x y s
  | .andVxVy x y => execAndVxVy x y s
  | .xorVxVy x y => execXorVxVy x y s
  | .addVxVy x y => execAddVxVy x y s
  | .subVxVy x y => execSubVxVy x y s
  | .shrVxVy x y => execShrVxVy x y s
  | .ldI nnn => execLdI nnn s
  | .rnd x kk => execRnd x kk s
  | .drw x y n => execDrw x y n s
  | .skp x => execSkp x s
  | .sknp x => execSknp x s
  | .ldVxDt x => execLdVxDt x s
  | .ldVxK x => execLdVxK x s
  | .ldDtVx x => execLdDtVx x s
  | .ldStVx x => execLdStVx x s
  | .addIVx x => execAddIVx x s
  | .ldFVx x => execLdFVx x s
  | .ldBVx x => execLdBVx x s
  | .ldVxMem x => execLdVxMem x s

/-- An instruction of a chain: a call pushes, jumps and hands over to `rest`; any other instruction ends it. -/
def execInChain (rest : State → Result) (i : Instr) (s : State) : Result :=
  match i with
  | .call nnn => rest (s.enterCall nnn)
  | j => execUnnested j s

/-- The nested instructions of a call under `nested_recursive` (R102), at most `fuel` of them. -/
def runCallChain : Nat → State → Result
  | 0, _ => .fault .endlessCallChain
  | fuel + 1, s => fetchExecute (execInChain (runCallChain fuel)) s

/-- 2nnn `CALL nnn` at depth 0 (R102): push, jump, then by CALL_MODE. Under `nested_recursive` MEM_SIZE nested
instructions are enough: a longer chain has fetched one address twice, so it never ends and the Step has no result
(R249). DEDUCED: log entry 5. -/
def execCall (nnn : Word) (s : State) : Result :=
  match s.params.callMode with
  | .nestedOneLevel => fetchExecute execUnnested (s.enterCall nnn)
  | .nestedRecursive => runCallChain memSize (s.enterCall nnn)
  | .flat => .next (s.enterCall nnn)

end Sys2Proof.Machine
end

