-- ==== Sys2Proof/Machine/Step.lean ====
section
/-! DEFINITION. Step (R78): one top-level instruction. -/

namespace Sys2Proof.Machine

/-- Step (R78): a faulted CORE takes no Step (R33, R215); else fetch, decode, execute at depth 0. -/
def step (s : State) : Host.Outcome State Fault Refusal :=
  match s.fault with
  | some r => .fault (.halted r)
  | none => fetchExecute exec s

/-- The state with an instruction word stored where step fetches next. It stands for the host's Load (log entry 15).
The fetch needs pc + 1 < MEM_SIZE and no fault, so a pc that cannot be fetched from becomes ROM_ORIGIN, and the fault
field is cleared. -/
def State.withFetchWord (s : State) (nbits w : Nat) : State :=
  let pc : Word := if memSize ≤ s.pc.toNat + 1 then BitVec.ofNat 16 romOrigin else s.pc
  ((s.setPc pc).setFault none).setMem (s.mem.writeBytes pc.toNat (tableBytes nbits w))

end Sys2Proof.Machine
end

