-- ==== Sys2Proof/Machine/HostOps.lean ====
section
/-! DEFINITION. The host interface (60_exceptions.md R218 to R222, 70_reset_and_hazards.md R240 to R243). Host
operations are atomic and occur between Steps only (R82, R219). -/

namespace Sys2Proof.Machine

/-- Initialize (R240) with the OPEN parameters of rule R5: every register, the stack, the timers, the framebuffer, the
keypad and memory outside FONT zero, pc at ROM_ORIGIN, FONT at FONT_BASE, no fault. `font80` is FONT, cut to the 80
bytes of its place. -/
def State.initial (p : Params) (font80 : List Byte) : State :=
  { State.reset with
    params := p
    mem := Memory.writeBytes [] fontBase (font80.take 80) }

/-- Load (R242): the first 3580 bytes go to 0x200, the excess is dropped (D13). -/
def State.load (s : State) (rom : List Byte) : State :=
  s.setMem (s.mem.writeBytes romOrigin (rom.take (memSize - romOrigin)))

/-- TickDelay (R218). -/
def State.tickDelay (s : State) : State := if s.dt = 0 then s else s.setDt (s.dt - 1)

/-- TickSound (R218). -/
def State.tickSound (s : State) : State := if s.st = 0 then s else s.setSt (s.st - 1)

/-- SoundRead (R220, R221): `sound_active = (ST != 0)`. -/
def State.soundActive (s : State) : Bool := s.st != 0

/-- FramebufferRead (R221): the 64x32 grid. -/
def State.framebufferRead (s : State) : Screen := s.fb

/-- FaultRead (R221): the fault record or none. -/
def State.faultRead (s : State) : Option FaultRecord := s.fault

/-- The numeric code of a fault (R210). -/
def FaultCode.number : FaultCode → Nat
  | .fetchOutOfRange => 1
  | .illegalInstruction => 2
  | .stackUnderflow => 3
  | .memoryOutOfRange => 4
  | .keyIndexOutOfRange => 5
  | .glyphDigitOutOfRange => 6
  | .flagAliasRefused => 7

/-- What Step reports to the host (R78, R212): success, unless it set the fault field, was not admitted, or has no
result. -/
def reportsSuccess : Result → Bool
  | .next s => s.fault.isNone
  | .fault _ => false
  | .refused _ => false

/-- How far a launch has come: R243 admits Load once, after Initialize and before the first Step. -/
inductive Phase where
  | initialized
  | loaded
  | running
  deriving DecidableEq, Repr

/-- The CORE's state and the phase of its launch: what decides which host operation has a move (R221). -/
structure Session where
  core : State
  phase : Phase
  deriving DecidableEq, Repr

/-- The host operations that can change the CORE (R221). -/
inductive HostOp where
  | load (rom : List Byte)
  | step
  | tickDelay
  | tickSound
  | keySet (i : Nat) (pressed : Bool)
  deriving DecidableEq, Repr

/-- The outcome of a host operation. -/
abbrev SessionResult := Host.Outcome Session Fault Refusal

/-- A host write that is admitted only while fault = none (R215, R221). -/
def Session.guarded (e : Session) (s' : SessionResult) : SessionResult :=
  match e.core.fault with
  | some r => .refused (.coreFaulted r)
  | none => s'

/-- The session after Step: whatever step answers, and the launch is over (R243). -/
def Session.afterStep (o : Result) : SessionResult :=
  match o with
  | .next s => .next { core := s, phase := .running }
  | .fault f => .fault f
  | .refused r => .refused r

/-- KeySet(i, pressed) (R222): an index outside 0..15 has no move (D23). -/
def Session.keySet (e : Session) (i : Nat) (pressed : Bool) : SessionResult :=
  if h : i < 16 then .next { e with core := e.core.setKey ⟨i, h⟩ pressed }
  else .refused (.keyIndexNotAKey i)

/-- Load(rom) (R242, R243). -/
def Session.load (e : Session) (rom : List Byte) : SessionResult :=
  match e.phase with
  | .initialized => .next { core := e.core.load rom, phase := .loaded }
  | .loaded => .refused .loadNotAtLaunch
  | .running => .refused .loadNotAtLaunch

/-- One host operation (R221). -/
def Session.perform (e : Session) : HostOp → SessionResult
  | .load rom => e.guarded (e.load rom)
  | .step => Session.afterStep (step e.core)
  | .tickDelay => e.guarded (.next { e with core := e.core.tickDelay })
  | .tickSound => e.guarded (.next { e with core := e.core.tickSound })
  | .keySet i p => e.guarded (e.keySet i p)

/-- A schedule of host operations, in order, stopping at the first that has no move: any interleaving of ticks, key
sets and Steps is a schedule (R219, D14, D25). -/
def Session.schedule (e : Session) : List HostOp → SessionResult
  | [] => .next e
  | op :: ops =>
    match e.perform op with
    | .next e' => e'.schedule ops
    | .fault f => .fault f
    | .refused r => .refused r

/-- An endless run: from each session the next operation answers the next one (R219: any order, any ratio). -/
def IsHostRun (sess : Nat → Session) (ops : Nat → HostOp) : Prop :=
  ∀ n, (sess n).perform (ops n) = .next (sess (n + 1))

/-- PREMISE ON THE HOST: it keeps calling Step (R221). No rule of the machine; a claim carries it as a hypothesis. -/
def KeepsStepping (ops : Nat → HostOp) : Prop := ∀ n, ∃ m, n ≤ m ∧ ops m = .step

/-- FAIRNESS PREMISE ON THE HOST (R248, D25): after a Step taken with DT not 0, a TickDelay eventually happens, unless
DT has become 0 by then. No rule of the machine; a claim that a DT poll loop ends carries it as a hypothesis. Reading:
log entry 29. -/
def FairDelayTicks (sess : Nat → Session) (ops : Nat → HostOp) : Prop :=
  ∀ n, ops n = .step → (sess n).core.dt ≠ 0 → ∃ m, n < m ∧ (ops m = .tickDelay ∨ (sess m).core.dt = 0)

/-- No Step of the run changes DT: its program polls the delay timer and does not set it. -/
def StepsLeaveDt (sess : Nat → Session) (ops : Nat → HostOp) : Prop :=
  ∀ n, ops n = .step → (sess (n + 1)).core.dt = (sess n).core.dt

/-- The session right after Initialize with the defaults (R221, R240). -/
def Session.start : Session := { core := State.reset, phase := .initialized }

end Sys2Proof.Machine
end

