-- ==== Sys2Proof/Safety.lean ====
section
/-! DEFINITION. The terms claims use: what an instruction may change (its frame), the invariant of reachable states
(R26, R27, R50), the stopped program (R226), the encoding line of a rule, and the pixels a sprite covers (R172). -/

namespace Sys2Proof.Machine

/-- The parts of the state other than the general registers. -/
inductive Part where
  | index | pc | stack | dt | st | fb | keys | mem | fault | params | draws
  deriving DecidableEq, Repr

/-- THE FRAME: from `s` to `t` nothing changes but the named parts and the named registers. Memory is compared at
every address, and the framebuffer pixel by pixel. -/
structure ChangesOnly (parts : List Part) (regs : List Reg) (s t : State) : Prop where
  reg : ∀ r, r ∉ regs → t.reg r = s.reg r
  index : Part.index ∉ parts → t.index = s.index
  pc : Part.pc ∉ parts → t.pc = s.pc
  stack : Part.stack ∉ parts → t.stack = s.stack
  dt : Part.dt ∉ parts → t.dt = s.dt
  st : Part.st ∉ parts → t.st = s.st
  fb : Part.fb ∉ parts → ∀ px py, t.pixel px py = s.pixel px py
  keys : Part.keys ∉ parts → ∀ k, t.key k = s.key k
  mem : Part.mem ∉ parts → ∀ a, t.byteAt a = s.byteAt a
  fault : Part.fault ∉ parts → t.fault = s.fault
  params : Part.params ∉ parts → t.params = s.params
  draws : Part.draws ∉ parts → t.draws = s.draws

/-- The invariant of the states a run reaches: memory in canonical form (R50), pc below 4096 (R26), and every stack
entry the address of a word that could be fetched (R26, R27). -/
abbrev State.Inv (s : State) : Prop :=
  s.mem.wf = true ∧ s.pc.toNat < 4096 ∧ ∀ r ∈ s.stack, r.toNat + 1 < memSize

/-- A safe state: the CORE has not faulted (R33). -/
abbrev State.faultFree (s : State) : Prop := s.fault = none

/-- A stopped program (R226): no fault, and the word at pc is a jump to its own address. -/
abbrev State.Stopped (s : State) : Prop :=
  s.fault = none ∧ s.pc.toNat ≤ 0xFFF ∧ s.fetch = some (BitVec.ofNat 16 (0x1000 + s.pc.toNat))

/-- The encoding line of an instruction's rule: its word has the match under the mask, and the decoder reads the
instruction back from it. -/
def EncodedAs (i : Instr) (pattern mask : Word) : Prop :=
  encode i &&& mask = pattern ∧ decodeWord (encode i) = .ok i

/-- The bytes of an n-row sprite at I (R170). -/
def State.spriteBytes (s : State) (n : Nat) : List Byte :=
  (List.range n).map fun r => s.mem.read (s.index.toNat + r)

/-- Whether a 1 bit of the sprite lands on pixel (px, py) when it is drawn at column xc and row yc with wraparound on
both axes: column offset (px - xc) mod 64 below 8, row offset (py - yc) mod 32 within the sprite, bit 7 leftmost. -/
def spriteCovers (bs : List Byte) (xc yc : Nat) (px : Fin 64) (py : Fin 32) : Bool :=
  let c := (px.val + (64 - xc % 64)) % 64
  let r := (py.val + (32 - yc % 32)) % 32
  decide (c < 8) &&
    match bs[r]? with
    | some b => b.getLsbD (7 - c)
    | none => false

/-- The same state, the fault field holding this record (R211, R212). -/
def State.withFault (s : State) (code : FaultCode) (pc : Word) (w : Option Word) (info : Nat) : State :=
  { s with fault := some { code := code, pc := pc, w := w, info := info } }

/-- The same state with another CALL_MODE (R5). -/
def State.withCallMode (s : State) (m : CallMode) : State :=
  { s with params := { s.params with callMode := m } }

end Sys2Proof.Machine
end

