-- ==== Sys2Proof/Certificates/Slice0/Obligations.lean ====
section
/-! DEFINITION. The statements for the provers, from the spec's numbered rules. Where a docstring says DECISION, the
clause is the spec's own choice (92_eei_decisions.md), not a statement of the source. -/

open Sys2Proof Sys2Proof.Machine

/-! ### Reset, Load and the host's operations -/

/-- 10_state.md section 9, the table of values after initialization. DECISION: DT = ST = 0 (D10, log entry 7), the glyph
bytes (D11, log entry 6), the fault field (D15). -/
def Obligations.ResetHoldsTheInitialValues : Prop :=
  (∀ r, State.reset.reg r = 0) ∧ State.reset.index = 0 ∧ State.reset.pc = 0x200 ∧ State.reset.stack = [] ∧
  State.reset.dt = 0 ∧ State.reset.st = 0 ∧ (∀ px py, State.reset.pixel px py = false) ∧
  (∀ k, State.reset.key k = false) ∧ State.reset.fault = none ∧ font.length = 80 ∧
  (∀ a, a < 80 → State.reset.byteAt a = font[a]?) ∧
  (∀ a, 80 ≤ a → a < 4092 → State.reset.byteAt a = some 0) ∧
  (∀ a, 4092 ≤ a → State.reset.byteAt a = none)

/-- 70_reset_and_hazards.md section 1, 00_scope.md section 2: Initialize with any parameters and any FONT of 80 bytes puts
FONT at 0x000..0x04F and zero elsewhere; with the defaults it is the reset state. DECISIONS: D10, D11, the default
values D3, D4, D6 (log entry 24). THE MODEL'S CHOICE: the parameters stand in a field of State that no Step and no host
operation changes (log entry 2, DESIGN CHOICE). -/
def Obligations.InitializeInstallsFontAndDefaultsGiveReset : Prop :=
  defaultParams = { callMode := .nestedOneLevel, flagAliasMode := .sequential, randLast := 255 } ∧
  State.initial defaultParams font = State.reset ∧
  (∀ (p : Params) (f : List Byte), f.length = 80 →
    (State.initial p f).params = p ∧
    (∀ a, (State.initial p f).byteAt a = if a < 80 then f[a]? else State.reset.byteAt a) ∧
    ChangesOnly [.mem, .params] [] State.reset (State.initial p f)) ∧
  (∀ s t : State, step s = .next t → t.params = s.params) ∧
  (∀ (e e' : Session) (op : HostOp), e.perform op = .next e' → e'.core.params = e.core.params)

/-- 70_reset_and_hazards.md section 2: Load copies the first 3580 bytes of the image to 0x200 and touches nothing else.
DECISION: the excess is dropped (D13). -/
def Obligations.LoadCopiesTheRomAndTruncates : Prop :=
  ∀ (s : State) (rom : List Byte), s.mem.wf = true →
    (∀ k, k < rom.length → k < 3580 → (s.load rom).byteAt (0x200 + k) = rom[k]?) ∧
    (∀ a, (a < 0x200 ∨ 0x200 + min rom.length 3580 ≤ a) → (s.load rom).byteAt a = s.byteAt a) ∧
    ChangesOnly [.mem] [] s (s.load rom)

/-- 60_exceptions.md sections 3 and 4: a tick decrements its own timer by one, floored at 0, and changes nothing else; as a
host operation it answers that state, the phase kept; and the sound output is on exactly while ST is not 0.
70_reset_and_hazards.md section 4, in a run whose Steps leave DT alone (a DT poll loop): without a TickDelay DT never
moves, and under the fairness premise DT reaches 0. DECISION: the premise is the host's, no rule of the machine (D25; its
reading: log entry 29). -/
def Obligations.TicksDecrementTheirOwnTimer : Prop :=
  (∀ s : State,
    s.tickDelay.dt.toNat = s.dt.toNat - 1 ∧ ChangesOnly [.dt] [] s s.tickDelay ∧
    s.tickSound.st.toNat = s.st.toNat - 1 ∧ ChangesOnly [.st] [] s s.tickSound ∧
    (s.soundActive = true ↔ s.st.toNat ≠ 0) ∧
    (s.tickSound.soundActive = true ↔ 2 ≤ s.st.toNat)) ∧
  (∀ e : Session, e.core.fault = none →
    e.perform .tickDelay = .next { core := e.core.tickDelay, phase := e.phase } ∧
    e.perform .tickSound = .next { core := e.core.tickSound, phase := e.phase }) ∧
  (∀ (sess : Nat → Session) (ops : Nat → HostOp), IsHostRun sess ops → StepsLeaveDt sess ops →
    ((∀ n, ops n ≠ .tickDelay) → ∀ n, (sess n).core.dt = (sess 0).core.dt) ∧
    (KeepsStepping ops → FairDelayTicks sess ops → ∃ n, (sess n).core.dt = 0))

/-- 60_exceptions.md section 4: KeySet writes the one key it names. DECISION: an index outside 0..15 has no move
(D23). -/
def Obligations.KeySetWritesOneKey : Prop :=
  ∀ (e : Session) (i : Nat) (p : Bool), e.core.fault = none →
    (∀ h : i < 16, ∃ t, e.perform (.keySet i p) = .next { core := t, phase := e.phase } ∧
      t.key ⟨i, h⟩ = p ∧ (∀ k : Key, k.val ≠ i → t.key k = e.core.key k) ∧ ChangesOnly [.keys] [] e.core t) ∧
    (16 ≤ i → e.perform (.keySet i p) = .refused (.keyIndexNotAKey i))

/-- 70_reset_and_hazards.md section 2 and 60_exceptions.md section 4. DECISION: Load has a move only right after
Initialize (D13); a faulted CORE has no move but the reads (D15). -/
def Obligations.LoadOnlyAtLaunchAndNoMoveAfterAFault : Prop :=
  (∀ (e : Session) (rom : List Byte), e.core.fault = none →
    (e.phase = .initialized → e.perform (.load rom) = .next { core := e.core.load rom, phase := .loaded }) ∧
    (e.phase ≠ .initialized → e.perform (.load rom) = .refused .loadNotAtLaunch)) ∧
  (∀ (e e' : Session), e.perform .step = .next e' → e'.phase = .running) ∧
  (∀ (e : Session) (op : HostOp) (r : FaultRecord), e.core.fault = some r → ∀ e', e.perform op ≠ .next e')

/-! ### Encoding -/

/-- 30_encoding.md sections 1 and 2: decoding the word of a well-formed instruction gives the instruction back, every
operand at every value. -/
def Obligations.DecodeOfEncodeIsTheInstruction : Prop :=
  ∀ i : Instr, i.wellFormed = true → decodeWord (encode i) = .ok i

/-- 30_encoding.md section 2: what decodes is well-formed and encodes to the word it came from. -/
def Obligations.EncodeOfDecodeIsTheWord : Prop :=
  ∀ (w : Word) (i : Instr), decodeWord w = .ok i → i.wellFormed = true ∧ encode i = w

/-- R77: every word is either an instruction of rule R74, selected by its row's match and mask, or illegal under R76. -/
def Obligations.EveryWordIsARowOrIllegal : Prop :=
  ∀ w : Word,
    (∃ i, decodeWord w = .ok i ∧ opcodeRow i ∈ opcodeTable ∧ (opcodeRow i).selects w = true) ∨
    (decodeWord w = .error (.illegalWord w) ∧ ∀ r ∈ opcodeTable, r.selects w = false)

/-- 30_encoding.md section 2 (R75 is the spec's own derivation): no word selects two rows of the table. -/
def Obligations.NoWordSelectsTwoRows : Prop :=
  opcodeTable.length = 28 ∧
  ∀ (w : Word), ∀ r ∈ opcodeTable, ∀ r' ∈ opcodeTable, r.selects w = true → r'.selects w = true → r = r'

/-- 30_encoding.md section 1: the operand fields are these bits of the word, none sign-extended, scaled or shifted. -/
def Obligations.OperandFieldsAreTheWordsBits : Prop :=
  ∀ w : Word,
    (fieldX w).val = w.toNat / 256 % 16 ∧ (fieldY w).val = w.toNat / 16 % 16 ∧ fieldN w = w.toNat % 16 ∧
    (fieldKk w).toNat = w.toNat % 256 ∧ (fieldNnn w).toNat = w.toNat % 4096

/-- 30_encoding.md section 2: one word of every family, written out from the decode table. -/
def Obligations.WordsOfTheTableDecode : Prop :=
  decodeWord 0b0010001000001000 = .ok (.call 0x208) ∧
  decodeWord 0b1000000100100110 = .ok (.shrVxVy 1 2) ∧
  decodeWord 0b1101101010110101 = .ok (.drw 10 11 5) ∧
  decodeWord 0b1110010110011110 = .ok (.skp 5) ∧
  decodeWord 0b1111001000011110 = .ok (.addIVx 2) ∧
  decodeWord 0b1111001001010101 = .error (.illegalWord 0xF255)

/-! ### Step and fault entry -/

/-- 30_encoding.md section 4: when the two bytes at pc, high byte first, decode to an instruction, Step from a state
without a fault is the execution of that instruction, and that instruction is well-formed. -/
def Obligations.StepRunsTheDecodedInstruction : Prop :=
  ∀ (s : State) (hi lo : Byte) (i : Instr), s.fault = none →
    s.byteAt s.pc.toNat = some hi → s.byteAt (s.pc.toNat + 1) = some lo → decode [hi, lo] = .ok (i, []) →
    i.wellFormed = true ∧ step s = exec i s

/-- 30_encoding.md sections 3 and 4. DECISION: the fault names and the record (D2). A word that matches no row raises
IllegalInstruction, and a pc whose second byte is not in memory raises FetchOutOfRange; nothing but the fault field
changes. -/
def Obligations.StepFaultsOnIllegalWordsAndUnfetchablePc : Prop :=
  ∀ s : State, s.fault = none →
    (∀ hi lo, s.byteAt s.pc.toNat = some hi → s.byteAt (s.pc.toNat + 1) = some lo →
      (∀ i, decodeWord (wordOfBytes hi lo) ≠ .ok i) →
      step s = .next (s.withFault .illegalInstruction s.pc
        (some (wordOfBytes hi lo)) (wordOfBytes hi lo).toNat)) ∧
    (4092 ≤ s.pc.toNat + 1 →
      step s = .next (s.withFault .fetchOutOfRange s.pc
        (none) s.pc.toNat))

/-- 60_exceptions.md section 1. DECISIONS: the fault field (D15), the numeric codes (D2). A faulted CORE takes no Step:
the machine stops with the record, which FaultRead returns; the seven faults are numbered 1 to 7. -/
def Obligations.AFaultedCoreTakesNoStep : Prop :=
  (∀ (s : State) (r : FaultRecord), s.fault = some r → step s = .fault (.halted r) ∧ s.faultRead = some r) ∧
  FaultCode.fetchOutOfRange.number = 1 ∧ FaultCode.illegalInstruction.number = 2 ∧
  FaultCode.stackUnderflow.number = 3 ∧ FaultCode.memoryOutOfRange.number = 4 ∧
  FaultCode.keyIndexOutOfRange.number = 5 ∧ FaultCode.glyphDigitOutOfRange.number = 6 ∧
  FaultCode.flagAliasRefused.number = 7

/-- 60_exceptions.md section 1. DECISIONS: hard-fail (D1), the record (D2). The operand checks: 00EE on an empty stack,
Fx29, Ex9E and ExA1 on a value of 16 or more, each with nothing changed but the fault field. -/
def Obligations.OperandChecksRaiseTheirFault : Prop :=
  ∀ s : State,
    (s.stack = [] → exec .ret s = .next (s.withFault .stackUnderflow s.pc
        (some 0x00EE) 0x00EE)) ∧
    ∀ x : Reg, 16 ≤ (s.reg x).toNat →
      exec (.ldFVx x) s = .next (s.withFault .glyphDigitOutOfRange s.pc
        (some (encode (.ldFVx x))) (s.reg x).toNat) ∧
      exec (.skp x) s = .next (s.withFault .keyIndexOutOfRange s.pc
        (some (encode (.skp x))) (s.reg x).toNat) ∧
      exec (.sknp x) s = .next (s.withFault .keyIndexOutOfRange s.pc
        (some (encode (.sknp x))) (s.reg x).toNat)

/-- 20_memory.md section 2 and 42, 43. DECISIONS: hard-fail (D1), all addresses checked before the first write (D21),
the record (D2). Fx33, Fx65 and Dxyn raise MemoryOutOfRange at the lowest address out of range, with nothing changed but the fault
field. -/
def Obligations.AccessesOutOfRangeRaiseAtTheLowestAddress : Prop :=
  ∀ (s : State) (x y : Reg) (n : Nat),
    (4092 < s.index.toNat + 3 → exec (.ldBVx x) s = .next (s.withFault .memoryOutOfRange s.pc
        (some (encode (.ldBVx x))) (max s.index.toNat 4092))) ∧
    (4092 < s.index.toNat + (x.val + 1) → exec (.ldVxMem x) s = .next (s.withFault .memoryOutOfRange s.pc
        (some (encode (.ldVxMem x))) (max s.index.toNat 4092))) ∧
    (0 < n → 4092 < s.index.toNat + n → exec (.drw x y n) s = .next (s.withFault .memoryOutOfRange s.pc
        (some (encode (.drw x y n))) (max s.index.toNat 4092)))

/-! ### ALU -/

/-- R122. -/
def Obligations.LoadImmediateWritesVx : Prop :=
  ∀ (x : Reg) (kk : Byte) (s : State),
    EncodedAs (.ldVxKk x kk) 0x6000 0xF000 ∧
    ∃ t, exec (.ldVxKk x kk) s = .next t ∧ t.reg x = kk ∧ t.pc = s.pc + 2 ∧ ChangesOnly [.pc] [x] s t

/-- R123: modulo 256, and no flag: VF is written only when x = F. -/
def Obligations.AddImmediateWrapsWithoutAFlag : Prop :=
  ∀ (x : Reg) (kk : Byte) (s : State),
    EncodedAs (.addVxKk x kk) 0x7000 0xF000 ∧
    ∃ t, exec (.addVxKk x kk) s = .next t ∧ (t.reg x).toNat = ((s.reg x).toNat + kk.toNat) % 256 ∧
      t.pc = s.pc + 2 ∧ ChangesOnly [.pc] [x] s t

/-- R124. -/
def Obligations.CopyRegisterWritesVx : Prop :=
  ∀ (x y : Reg) (s : State),
    EncodedAs (.ldVxVy x y) 0x8000 0xF00F ∧
    ∃ t, exec (.ldVxVy x y) s = .next t ∧ t.reg x = s.reg y ∧ t.pc = s.pc + 2 ∧ ChangesOnly [.pc] [x] s t

/-- R125, R126, R127: bit by bit, and VF is not cleared. -/
def Obligations.LogicOperationsWorkBitByBit : Prop :=
  ∀ (x y : Reg) (s : State),
    (EncodedAs (.orVxVy x y) 0x8001 0xF00F ∧ EncodedAs (.andVxVy x y) 0x8002 0xF00F ∧
      EncodedAs (.xorVxVy x y) 0x8003 0xF00F) ∧
    (∃ t, exec (.orVxVy x y) s = .next t ∧
      (∀ j, (t.reg x).getLsbD j = ((s.reg x).getLsbD j || (s.reg y).getLsbD j)) ∧
      t.pc = s.pc + 2 ∧ ChangesOnly [.pc] [x] s t) ∧
    (∃ t, exec (.andVxVy x y) s = .next t ∧
      (∀ j, (t.reg x).getLsbD j = ((s.reg x).getLsbD j && (s.reg y).getLsbD j)) ∧
      t.pc = s.pc + 2 ∧ ChangesOnly [.pc] [x] s t) ∧
    (∃ t, exec (.xorVxVy x y) s = .next t ∧
      (∀ j, (t.reg x).getLsbD j = ((s.reg x).getLsbD j ^^ (s.reg y).getLsbD j)) ∧
      t.pc = s.pc + 2 ∧ ChangesOnly [.pc] [x] s t)

/-- R128: for x other than F the sum modulo 256 in Vx; VF is the carry for every x, F itself included. -/
def Obligations.AddRegistersSetsCarry : Prop :=
  ∀ (x y : Reg) (s : State),
    EncodedAs (.addVxVy x y) 0x8004 0xF00F ∧
    ∃ t, exec (.addVxVy x y) s = .next t ∧
      (x ≠ regF → (t.reg x).toNat = ((s.reg x).toNat + (s.reg y).toNat) % 256) ∧
      t.reg regF = (if (s.reg x).toNat + (s.reg y).toNat > 255 then 1 else 0) ∧
      t.pc = s.pc + 2 ∧ ChangesOnly [.pc] [x, regF] s t

/-- 41_alu.md section 3, 8xy5 where it runs. DECISION: the written order of the statements when an operand is VF (D6,
log entry 11): a read of VF after the flag write sees the flag f. -/
def Obligations.SubtractSetsNotBorrowThenVx : Prop :=
  ∀ (x y : Reg) (s : State),
    s.params.flagAliasMode = .sequential ∨ (x ≠ regF ∧ y ≠ regF) →
    EncodedAs (.subVxVy x y) 0x8005 0xF00F ∧
    let f : Byte := if (s.reg y).toNat > (s.reg x).toNat then 0 else 1
    let a : Byte := if x = regF then f else s.reg x
    let b : Byte := if y = regF then f else s.reg y
    ∃ t, exec (.subVxVy x y) s = .next t ∧ (t.reg x).toNat = (a.toNat + 256 - b.toNat) % 256 ∧
      (x ≠ regF → t.reg regF = f) ∧ t.pc = s.pc + 2 ∧ ChangesOnly [.pc] [x, regF] s t

/-- 41_alu.md section 3, 8xy6 where it runs: Vx itself is shifted, y is not used. DECISION: the written order of the
statements when x = F (D6, log entry 11), which leaves VF = 0. -/
def Obligations.ShiftRightPutsTheLowBitInVf : Prop :=
  ∀ (x y : Reg) (s : State),
    s.params.flagAliasMode = .sequential ∨ x ≠ regF →
    EncodedAs (.shrVxVy x y) 0x8006 0xF00F ∧
    ∃ t, exec (.shrVxVy x y) s = .next t ∧
      (x ≠ regF → (t.reg x).toNat = (s.reg x).toNat / 2 ∧ (t.reg regF).toNat = (s.reg x).toNat % 2) ∧
      (x = regF → t.reg regF = 0) ∧
      t.pc = s.pc + 2 ∧ ChangesOnly [.pc] [x, regF] s t

/-- 41_alu.md section 1. DECISIONS: D6, the record D2. Under `refuse`, 8xy5 with x or y = F and 8xy6 with x = F raise FlagAliasRefused
and write nothing else. -/
def Obligations.RefusedAliasFormsFault : Prop :=
  ∀ (x y : Reg) (s : State), s.params.flagAliasMode = .refuse →
    (x = regF ∨ y = regF → exec (.subVxVy x y) s = .next (s.withFault .flagAliasRefused s.pc
        (some (encode (.subVxVy x y))) (encode (.subVxVy x y)).toNat)) ∧
    (x = regF → exec (.shrVxVy x y) s = .next (s.withFault .flagAliasRefused s.pc
        (some (encode (.shrVxVy x y))) (encode (.shrVxVy x y)).toNat))

/-- 41_alu.md section 4: Vx is the next free byte, brought into RAND_RANGE, masked by kk, and the draw is used up; and
whatever byte of the range is wanted, some value of the free byte gives it. DECISION: RAND_RANGE = {0..randLast} (D3,
log entry 3). -/
def Obligations.RandomByteIsInRangeAndMasked : Prop :=
  (∀ (x : Reg) (kk : Byte) (s : State),
    EncodedAs (.rnd x kk) 0xC000 0xF000 ∧
    let r : Byte := randInRange s.params.randLast (Config.randomByte s.draws)
    ∃ t, exec (.rnd x kk) s = .next t ∧ r.toNat ≤ s.params.randLast.toNat ∧
      t.reg x = r &&& kk ∧ t.reg x &&& ~~~kk = 0 ∧ t.draws = s.draws + 1 ∧
      t.pc = s.pc + 2 ∧ ChangesOnly [.pc, .draws] [x] s t) ∧
  (∀ last r : Byte, r.toNat ≤ last.toNat → ∃ raw, randInRange last raw = r)

/-! ### Control transfer -/

/-- 40_control.md, 00EE on a stack that is not empty. DECISION: pc is the popped address plus 2 (D5, log entry 10). -/
def Obligations.ReturnPopsAndContinuesAfterTheCall : Prop :=
  EncodedAs .ret 0x00EE 0xFFFF ∧
  ∀ (s : State) (below : List Word) (r : Word), s.stack = below ++ [r] →
    ∃ t, exec .ret s = .next t ∧ t.stack = below ∧ t.pc = r + 2 ∧ ChangesOnly [.pc, .stack] [] s t

/-- 40_control.md, 1nnn. DECISION: no 2 is added (D5, log entry 10). -/
def Obligations.JumpSetsPc : Prop :=
  ∀ (nnn : Word) (s : State), nnn.toNat < 0x1000 →
    EncodedAs (.jp nnn) 0x1000 0xF000 ∧
    ∃ t, exec (.jp nnn) s = .next t ∧ t.pc = nnn ∧ ChangesOnly [.pc] [] s t

/-- R103, R104: pc + 4 when the condition holds, else pc + 2; nothing else changes; a pc of 4091 or above has no next
fetch. -/
def Obligations.SkipsOnImmediateMovePc : Prop :=
  ∀ (x : Reg) (kk : Byte) (s : State),
    (EncodedAs (.seVxKk x kk) 0x3000 0xF000 ∧ EncodedAs (.sneVxKk x kk) 0x4000 0xF000) ∧
    (∃ t, exec (.seVxKk x kk) s = .next t ∧
      t.pc = (if s.reg x = kk then s.pc + 4 else s.pc + 2) ∧ (4091 ≤ t.pc.toNat → t.fetch = none) ∧
      ChangesOnly [.pc] [] s t) ∧
    (∃ t, exec (.sneVxKk x kk) s = .next t ∧
      t.pc = (if s.reg x ≠ kk then s.pc + 4 else s.pc + 2) ∧ (4091 ≤ t.pc.toNat → t.fetch = none) ∧
      ChangesOnly [.pc] [] s t)

/-- 40_control.md, 2nnn under `flat`. DECISIONS: the pushed address (D5), CALL_MODE (D4). -/
def Obligations.FlatCallPushesAndJumps : Prop :=
  ∀ (nnn : Word) (s : State), nnn.toNat < 0x1000 → s.params.callMode = .flat →
    EncodedAs (.call nnn) 0x2000 0xF000 ∧
    ∃ t, exec (.call nnn) s = .next t ∧ t.stack = s.stack ++ [s.pc] ∧ t.pc = nnn ∧
      ChangesOnly [.pc, .stack] [] s t

/-- 40_control.md, 2nnn under `nested_one_level`, the default: the instruction at the target runs in the same Step, from
the state after the push and the jump; when it is a call it pushes nnn and jumps, and its own target does not run.
DECISIONS: D4, D5. -/
def Obligations.CallRunsItsTargetInTheSameStep : Prop :=
  ∀ (nnn : Word) (s : State) (w : Word) (i : Instr), s.params.callMode = .nestedOneLevel →
    let u : State := { s with stack := s.stack ++ [s.pc], pc := nnn }
    u.fetch = some w → decodeWord w = .ok i →
    ((∀ m, i ≠ .call m) → exec (.call nnn) s = exec i u) ∧
    (∀ m, i = .call m → exec (.call nnn) s = .next { u with stack := u.stack ++ [nnn], pc := m })

/-- 40_control.md R105 in its fault clauses: a nested fault leaves the call's push and pc write in place, and the record
names nnn. DECISIONS: D2, D4, D5. -/
def Obligations.NestedFetchAndDecodeFaultsKeepTheCall : Prop :=
  ∀ (nnn : Word) (s : State), s.params.callMode ≠ .flat →
    let u : State := { s with stack := s.stack ++ [s.pc], pc := nnn }
    (4091 ≤ nnn.toNat → exec (.call nnn) s = .next (u.withFault .fetchOutOfRange nnn
        (none) nnn.toNat)) ∧
    (∀ w, u.fetch = some w → (∀ i, decodeWord w ≠ .ok i) → exec (.call nnn) s = .next (u.withFault .illegalInstruction nnn
        (some w) w.toNat))

/-- 40_control.md, 2nnn under `nested_recursive`: the call is its push and jump followed by the full execution of its
target, whatever the target is. So the bound the model puts on a chain of calls is no restriction: where it stops, the
chain never ends. DECISIONS: D4 (log entry 28), and D5 (log entry 10) for the entry pushed, the call's own address;
DEDUCED: log entry 5. -/
def Obligations.RecursiveCallExecutesItsTarget : Prop :=
  ∀ (nnn : Word) (s : State) (w : Word) (i : Instr), s.params.callMode = .nestedRecursive →
    let u : State := { s with stack := s.stack ++ [s.pc], pc := nnn }
    u.fetch = some w → decodeWord w = .ok i → exec (.call nnn) s = exec i u

/-- 70_reset_and_hazards.md section 4: under `nested_recursive`, a call whose target is a call to itself has no result, be
it reached directly or through one call; and in general a call has no result exactly when its chain never ends, that is,
when its target lies in a set of addresses each holding a call into the set (a self-call, a cycle of calls, a chain
that runs into one). DECISION: D4 (log entry 28); the stuck state and the bound that finds it: DEDUCED, log entry 5. -/
def Obligations.CallToASelfCallHasNoResult : Prop :=
  (∀ (m n : Word) (s : State) (w : Word), s.params.callMode = .nestedRecursive →
    (s.setPc n).fetch = some w → decodeWord w = .ok (.call n) → (m = n ∨ ∃ w', (s.setPc m).fetch = some w' ∧
      decodeWord w' = .ok (.call n)) →
    exec (.call m) s = .fault .endlessCallChain) ∧
  (∀ (m : Word) (s : State), s.params.callMode = .nestedRecursive →
    (exec (.call m) s = .fault .endlessCallChain ↔
      ∃ chain : Word → Prop, chain m ∧
        ∀ a, chain a → ∃ w b, (s.setPc a).fetch = some w ∧ decodeWord w = .ok (.call b) ∧ chain b))

/-- 40_control.md R106 (the spec's derivation): once the stack again ends with the entry a call at a pushed, RET goes to
a + 2 and leaves the stack as it was before the call, in every mode. That is the stack a call leaves under `flat`, and
under the nested modes when its target is neither a call nor 00EE; a target that is 00EE runs in the call's own Step
and pops the entry at once, so that the call only moves pc by 2. DECISIONS: the entry and the 2 (D5, log entry 10),
CALL_MODE (D4, log entry 28). -/
def Obligations.ReturnUndoesTheCall : Prop :=
  (∀ s u : State, u.stack = s.stack ++ [s.pc] →
    ∃ v, exec .ret u = .next v ∧ v.pc = s.pc + 2 ∧ v.stack = s.stack ∧ ChangesOnly [.pc, .stack] [] u v) ∧
  (∀ (nnn : Word) (s t u : State), s.params.callMode = .flat → exec (.call nnn) s = .next t → u.stack = t.stack →
    ∃ v, exec .ret u = .next v ∧ v.pc = s.pc + 2 ∧ v.stack = s.stack ∧ ChangesOnly [.pc, .stack] [] u v) ∧
  (∀ (nnn : Word) (s t u : State) (w : Word) (i : Instr), s.params.callMode ≠ .flat →
    (s.setPc nnn).fetch = some w → decodeWord w = .ok i → (∀ m, i ≠ .call m) → i ≠ .ret →
    exec (.call nnn) s = .next t → u.stack = t.stack →
    ∃ v, exec .ret u = .next v ∧ v.pc = s.pc + 2 ∧ v.stack = s.stack ∧ ChangesOnly [.pc, .stack] [] u v) ∧
  (∀ (nnn : Word) (s : State), s.params.callMode ≠ .flat → (s.setPc nnn).fetch = some 0x00EE →
    ∃ v, exec (.call nnn) s = .next v ∧ v.pc = s.pc + 2 ∧ v.stack = s.stack ∧ ChangesOnly [.pc] [] s v)

/-- 92_eei_decisions.md D4: between the modes the same instructions run in the same order; a Step that starts at a call
under `nested_one_level` ends in the state that two Steps under `flat` end in. -/
def Obligations.NestedCallStepIsTwoFlatSteps : Prop :=
  ∀ (s : State) (w nnn : Word), s.fault = none → s.params.callMode = .nestedOneLevel →
    s.fetch = some w → decodeWord w = .ok (.call nnn) →
    ∃ t u, step s = .next t ∧ step (s.withCallMode .flat) = .next u ∧ step u = .next (t.withCallMode .flat)

/-! ### Index register and memory -/

/-- R151. -/
def Obligations.LoadIndexWritesI : Prop :=
  ∀ (nnn : Word) (s : State), nnn.toNat < 0x1000 →
    EncodedAs (.ldI nnn) 0xA000 0xF000 ∧
    ∃ t, exec (.ldI nnn) s = .next t ∧ t.index = nnn ∧ t.pc = s.pc + 2 ∧ ChangesOnly [.pc, .index] [] s t

/-- 42_index_memory.md section 2, Fx1E: no flag. DECISION: modulo 65536 (D9, log entry 12). -/
def Obligations.AddToIndexWraps : Prop :=
  ∀ (x : Reg) (s : State),
    EncodedAs (.addIVx x) 0xF01E 0xF0FF ∧
    ∃ t, exec (.addIVx x) s = .next t ∧ t.index.toNat = (s.index.toNat + (s.reg x).toNat) % 65536 ∧
      t.pc = s.pc + 2 ∧ ChangesOnly [.pc, .index] [] s t

/-- 42_index_memory.md section 2, Fx29 on a digit (a value of 16 or more faults: OperandChecksRaiseTheirFault). -/
def Obligations.GlyphAddressIsFiveTimesTheDigit : Prop :=
  ∀ (x : Reg) (s : State), (s.reg x).toNat < 16 →
    EncodedAs (.ldFVx x) 0xF029 0xF0FF ∧
    ∃ t, exec (.ldFVx x) s = .next t ∧ t.index.toNat = 5 * (s.reg x).toNat ∧ t.pc = s.pc + 2 ∧
      ChangesOnly [.pc, .index] [] s t

/-- 42_index_memory.md section 3, Fx33 with its three addresses in memory: the stored bytes are hundreds, tens and
units at I, I+1, I+2; every other byte, and I, stay. -/
def Obligations.BcdStoresThreeDigits : Prop :=
  ∀ (x : Reg) (s : State), s.mem.wf = true → s.index.toNat + 2 < 4092 →
    EncodedAs (.ldBVx x) 0xF033 0xF0FF ∧
    ∃ t, exec (.ldBVx x) s = .next t ∧
      (∃ h d u : Byte, t.byteAt s.index.toNat = some h ∧ t.byteAt (s.index.toNat + 1) = some d ∧
        t.byteAt (s.index.toNat + 2) = some u ∧ d.toNat < 10 ∧ u.toNat < 10 ∧
        100 * h.toNat + 10 * d.toNat + u.toNat = (s.reg x).toNat) ∧
      (∀ a, a < s.index.toNat ∨ s.index.toNat + 2 < a → t.byteAt a = s.byteAt a) ∧
      t.pc = s.pc + 2 ∧ ChangesOnly [.pc, .mem] [] s t

/-- 42_index_memory.md section 3, Fx65 with its addresses in memory: V0..Vx are the bytes at I..I+x. DECISION: I is
unchanged (D8, log entry 12). -/
def Obligations.LoadRegistersReadsABlock : Prop :=
  ∀ (x : Reg) (s : State), s.index.toNat + x.val < 4092 →
    EncodedAs (.ldVxMem x) 0xF065 0xF0FF ∧
    ∃ t, exec (.ldVxMem x) s = .next t ∧
      (∀ k : Reg, k ≤ x → some (t.reg k) = s.byteAt (s.index.toNat + k.val)) ∧
      (∀ k : Reg, x < k → t.reg k = s.reg k) ∧ t.pc = s.pc + 2 ∧
      ChangesOnly [.pc] ((List.finRange 16).filter (fun k => k ≤ x)) s t

/-- 20_memory.md section 5. DECISION: a store is seen by the next fetch of its address (D17). After Fx33, memory holds the
hundreds, tens and units of Vx at I, I+1, I+2 and the old bytes elsewhere, and a fetch anywhere reads those bytes. -/
def Obligations.StoredBytesAreFetched : Prop :=
  ∀ (x : Reg) (s t : State) (p : Word), s.mem.wf = true → s.index.toNat + 2 < 4092 → p.toNat + 1 < 4092 →
    exec (.ldBVx x) s = .next t →
    let now : Nat → Option Byte := fun a =>
      if a = s.index.toNat then some (BitVec.ofNat 8 ((s.reg x).toNat / 100))
      else if a = s.index.toNat + 1 then some (BitVec.ofNat 8 ((s.reg x).toNat / 10 % 10))
      else if a = s.index.toNat + 2 then some (BitVec.ofNat 8 ((s.reg x).toNat % 10))
      else s.byteAt a
    (∀ a, t.byteAt a = now a) ∧
    ∃ hi lo, now p.toNat = some hi ∧ now (p.toNat + 1) = some lo ∧
      (t.setPc p).fetch = some (BitVec.ofNat 16 (hi.toNat * 256 + lo.toNat))

/-! ### Display -/

/-- R171: every pixel 0, VF and everything else unchanged. -/
def Obligations.ClearScreenClearsEveryPixel : Prop :=
  EncodedAs .cls 0x00E0 0xFFFF ∧
  ∀ s : State, ∃ t, exec .cls s = .next t ∧ (∀ px py, t.pixel px py = false) ∧ t.pc = s.pc + 2 ∧
    ChangesOnly [.pc, .fb] [] s t

/-- 43_display.md section 3: the pixels the sprite covers are inverted, with wraparound, the coordinates from before
the draw, and VF is 1 exactly when a pixel that was 1 is 0 after it, else 0. DECISIONS: bit 7 leftmost (D12, log entry
9), coordinates before, VF after (D22). -/
def Obligations.DrawXorsTheSpriteAndReportsCollision : Prop :=
  ∀ (x y : Reg) (n : Nat) (s : State), n < 16 → (n = 0 ∨ s.index.toNat + n ≤ 4092) →
    EncodedAs (.drw x y n) 0xD000 0xF000 ∧
    ∃ t, exec (.drw x y n) s = .next t ∧
      (∀ px py, t.pixel px py =
        (s.pixel px py ^^ spriteCovers (s.spriteBytes n) (s.reg x).toNat (s.reg y).toNat px py)) ∧
      (t.reg regF = 0 ∨ t.reg regF = 1) ∧
      (t.reg regF = 1 ↔ ∃ px py, s.pixel px py = true ∧ t.pixel px py = false) ∧
      t.pc = s.pc + 2 ∧ ChangesOnly [.pc, .fb] [regF] s t

/-- 43_display.md R174, property 1 (the spec's derivation): after clearing, a draw leaves exactly the sprite, and
VF = 0. DECISIONS: D12, D22. -/
def Obligations.DrawOnAClearScreenShowsTheSprite : Prop :=
  ∀ (x y : Reg) (n : Nat) (s : State), n < 16 → (n = 0 ∨ s.index.toNat + n ≤ 4092) →
    ∃ u t, exec .cls s = .next u ∧ exec (.drw x y n) u = .next t ∧
      (∀ px py, t.pixel px py = spriteCovers (s.spriteBytes n) (s.reg x).toNat (s.reg y).toNat px py) ∧
      t.reg regF = 0

/-- 43_display.md R174, property 2 (the spec's derivation): the same draw twice restores the framebuffer, and the second
VF is 1 exactly when the first draw left a pixel of the sprite set. DECISIONS: D12, D22. -/
def Obligations.DrawingTwiceRestoresTheScreen : Prop :=
  ∀ (x y : Reg) (n : Nat) (s : State), x ≠ regF → y ≠ regF → n < 16 → (n = 0 ∨ s.index.toNat + n ≤ 4092) →
    ∃ t u, exec (.drw x y n) s = .next t ∧ exec (.drw x y n) t = .next u ∧
      (∀ px py, u.pixel px py = s.pixel px py) ∧
      (u.reg regF = 1 ↔ ∃ px py, t.pixel px py = true ∧
        spriteCovers (s.spriteBytes n) (s.reg x).toNat (s.reg y).toNat px py = true)

/-! ### Keypad and timers -/

/-- 44_keys_timers.md, Ex9E and ExA1 on a key index (16 or more faults: OperandChecksRaiseTheirFault). -/
def Obligations.KeySkipsFollowTheKeyLevel : Prop :=
  ∀ (x : Reg) (k : Key) (s : State), (s.reg x).toNat = k.val →
    (EncodedAs (.skp x) 0xE09E 0xF0FF ∧ EncodedAs (.sknp x) 0xE0A1 0xF0FF) ∧
    (∃ t, exec (.skp x) s = .next t ∧
      t.pc = (if s.key k = true then s.pc + 4 else s.pc + 2) ∧ ChangesOnly [.pc] [] s t) ∧
    (∃ t, exec (.sknp x) s = .next t ∧
      t.pc = (if s.key k = true then s.pc + 2 else s.pc + 4) ∧ ChangesOnly [.pc] [] s t)

/-- R193, R195, R196. -/
def Obligations.TimersAreReadAndWritten : Prop :=
  ∀ (x : Reg) (s : State),
    (EncodedAs (.ldVxDt x) 0xF007 0xF0FF ∧ EncodedAs (.ldDtVx x) 0xF015 0xF0FF ∧
      EncodedAs (.ldStVx x) 0xF018 0xF0FF) ∧
    (∃ t, exec (.ldVxDt x) s = .next t ∧ t.reg x = s.dt ∧ t.pc = s.pc + 2 ∧ ChangesOnly [.pc] [x] s t) ∧
    (∃ t, exec (.ldDtVx x) s = .next t ∧ t.dt = s.reg x ∧ t.pc = s.pc + 2 ∧ ChangesOnly [.pc, .dt] [] s t) ∧
    (∃ t, exec (.ldStVx x) s = .next t ∧ t.st = s.reg x ∧ t.soundActive = (s.reg x != 0) ∧ t.pc = s.pc + 2 ∧
      ChangesOnly [.pc, .st] [] s t)

/-- 44_keys_timers.md, Fx0A: with no key pressed the Step completes and changes nothing; with a key pressed, Vx is the
index of the pressed key that the next free choice picks, pc advances and the choice is used up. DECISION: any pressed
key (D7, log entry 4); whichever is pressed, some value of the free choice picks it. -/
def Obligations.KeyWaitTakesAPressedKeyOrWaits : Prop :=
  (∀ (x : Reg) (s : State), EncodedAs (.ldVxK x) 0xF00A 0xF0FF ∧
    ((∀ k, s.key k = false) → exec (.ldVxK x) s = .next s) ∧
    ((∃ k, s.key k = true) → ∃ (t : State) (first : Key) (rest : List Key),
      s.pressedKeys = first :: rest ∧ exec (.ldVxK x) s = .next t ∧
      s.key (chooseKey first rest (Config.keyChoice s.draws)) = true ∧
      (t.reg x).toNat = (chooseKey first rest (Config.keyChoice s.draws)).val ∧ t.draws = s.draws + 1 ∧
      t.pc = s.pc + 2 ∧ ChangesOnly [.pc, .draws] [x] s t)) ∧
  (∀ (s : State) (k : Key), s.key k = true →
    ∃ first rest n, s.pressedKeys = first :: rest ∧ chooseKey first rest n = k)

/-! ### The whole machine -/

/-- 10_state.md section 2: 8xy4, 8xy5, 8xy6 and Dxyn write VF as a side effect; every other instruction leaves VF alone unless VF is its
named destination. (A call writes VF only through its nested instruction, which this covers.) -/
def Obligations.OnlyFlagInstructionsWriteVf : Prop :=
  ∀ (i : Instr) (s t : State), (∀ n, i ≠ .call n) → exec i s = .next t → t.reg regF ≠ s.reg regF →
    match i with
    | .addVxVy _ _ | .subVxVy _ _ | .shrVxVy _ _ | .drw _ _ _ => True
    | .ldVxKk x _ | .addVxKk x _ | .ldVxVy x _ | .orVxVy x _ | .andVxVy x _ | .xorVxVy x _ | .rnd x _ => x = regF
    | .ldVxDt x | .ldVxK x | .ldVxMem x => x = regF
    | _ => False

/-- 10_state.md sections 3 and 5 to 7, 20_memory.md section 1: who writes I, the stack, the timers, the framebuffer and
memory, and that nothing writes the keypad, but for 2nnn: a call writes the stack and pc, and
its nested instruction what that instruction writes (CallRunsItsTargetInTheSameStep). -/
def Obligations.EachPartHasItsWriters : Prop :=
  ∀ (i : Instr) (s t : State), (∀ n, i ≠ .call n) → exec i s = .next t →
    (t.index ≠ s.index → (∃ n, i = .ldI n) ∨ (∃ x, i = .addIVx x) ∨ ∃ x, i = .ldFVx x) ∧
    (t.stack ≠ s.stack → i = .ret) ∧
    (t.dt ≠ s.dt → ∃ x, i = .ldDtVx x) ∧
    (t.st ≠ s.st → ∃ x, i = .ldStVx x) ∧
    (t.fb ≠ s.fb → i = .cls ∨ ∃ x y n, i = .drw x y n) ∧
    (t.mem ≠ s.mem → ∃ x, i = .ldBVx x) ∧
    t.keys = s.keys

/-- R247: a Step never changes the keypad, and a program waiting in Fx0A with no key pressed stays where it is, without a
fault. -/
def Obligations.StepNeverChangesTheKeypad : Prop :=
  (∀ s t : State, step s = .next t → t.keys = s.keys) ∧
  (∀ (s : State) (w : Word) (x : Reg), s.fault = none → s.fetch = some w → decodeWord w = .ok (.ldVxK x) →
    (∀ k, s.key k = false) → ∀ n, Host.Core.run core n s = .next s)

/-- 60_exceptions.md R212, R213 (the spec's derivation), 40_control.md R105. When an instruction faults, the state is the
one before the faulting instruction, plus the record; for a fault nested in a call, the pushes and jumps of the calls
above it stay. The record names the pc and the word of the faulting instruction, for a nested one the word at the
record's pc, or none where no word can be fetched there. DECISIONS: D21 (log entry 13), the record D2 (its word is the
instruction's encoding: log entry 17, DEDUCED), the pushed address D5 (log entry 10), CALL_MODE D4 (log entry 28). -/
def Obligations.FaultsArePrecise : Prop :=
  (∀ (i : Instr) (s t : State), s.fault = none → (∀ n, i ≠ .call n) → exec i s = .next t → t.fault ≠ none →
    ∃ r, t = { s with fault := some r } ∧ r.pc = s.pc ∧ r.w = some (encode i)) ∧
  (∀ (nnn : Word) (s t : State), s.fault = none → exec (.call nnn) s = .next t → t.fault ≠ none →
    ∃ (pushed : List Word) (r : FaultRecord),
      t = { s with stack := s.stack ++ pushed, pc := r.pc, fault := some r } ∧ pushed.head? = some s.pc ∧
      r.w = (s.setPc r.pc).fetch ∧
      (s.params.callMode = .nestedOneLevel → pushed = [s.pc] ∧ r.pc = nnn) ∧ s.params.callMode ≠ .flat)

/-- 30_encoding.md section 4: outside the hang of `nested_recursive`, Step of a CORE without a fault always answers a
next state: no instruction word is refused. DECISIONS: CALL_MODE D4 (log entry 28), the fault field D15. DEDUCED: that a
fault is entered by a next state (log entry 1), and the stuck state endlessCallChain for the hang of R249 (log entry 5). -/
def Obligations.StepOfARunningCoreAnswersNext : Prop :=
  ∀ s : State, s.fault = none →
    (s.params.callMode ≠ .nestedRecursive → ∃ t, step s = .next t) ∧
    ((∃ t, step s = .next t) ∨ step s = .fault .endlessCallChain)

/-- 10_state.md section 2, the invariant of VF (R22, the spec's derivation; C2): after 8xy4, 8xy6 and Dxyn, and after
8xy5 with x other than F, VF is 0 or 1 when the instruction does not fault. DECISION: D6. -/
def Obligations.VfIsZeroOrOneAfterFlagInstructions : Prop :=
  ∀ (i : Instr) (s t : State), exec i s = .next t → s.fault = none → t.fault = none →
    ((∃ x y, i = .addVxVy x y) ∨ (∃ x y, i = .shrVxVy x y) ∨ (∃ x y n, i = .drw x y n) ∨
      ∃ x y, i = .subVxVy x y ∧ x ≠ regF) →
    t.reg regF = 0 ∨ t.reg regF = 1

/-- 10_state.md sections 4 and 5 and 20_memory.md section 1: the invariant holds at reset (and after any Load there).
DECISION: its stack entries are calls' own addresses (D5, log entry 10). -/
def Obligations.InvariantHoldsAtReset : Prop :=
  State.reset.Inv ∧ ∀ rom, (State.reset.load rom).Inv

/-- 10_state.md R26, R27 (the spec's derivation), 20_memory.md R50: every Step keeps memory canonical, pc below 4096 and
the stack's entries addresses that were fetched from. DECISION: the entries are calls' own addresses (D5, log entry 10);
what canonical memory lists: log entry 6. -/
def Obligations.StepKeepsTheInvariant : Prop :=
  ∀ s t : State, s.Inv → step s = .next t → t.Inv

/-- 60_exceptions.md section 4: every host operation keeps the invariant. DECISION: its stack entries are calls' own
addresses (D5, log entry 10). -/
def Obligations.HostOperationsKeepTheInvariant : Prop :=
  ∀ (e e' : Session) (op : HostOp), e.core.Inv → e.perform op = .next e' → e'.core.Inv

/-- The model's representation of memory (log entry 6): memories in canonical form that read alike are equal. -/
def Obligations.CanonicalMemoriesThatReadAlikeAreEqual : Prop :=
  ∀ m m' : Memory, m.wf = true → m'.wf = true → (∀ a, a < 4092 → m.read a = m'.read a) → m = m'

/-- 60_exceptions.md section 5. DECISION: what a stopped program is (D24). Every later Step leaves a stopped state
unchanged. -/
def Obligations.AStoppedProgramStays : Prop :=
  ∀ s : State, s.Stopped → ∀ n, Host.Core.run core n s = .next s
end

