-- ==== Sys2Proof/Laws/Decode.lean ====
section
/-! SUPPORT. The fields of a word as arithmetic (R70, R71), the value of every encoded word, and the tests of the
decode table as equations on nibbles. -/

namespace Sys2Proof

theorem nibble1_toNat (w : Word) : (nibble1 w).toNat = w.toNat / 4096 := by
  have := w.isLt
  simp only [nibble1, BitVec.extractLsb'_toNat, Nat.shiftRight_eq_div_pow]
  omega

theorem nibble2_toNat (w : Word) : (nibble2 w).toNat = w.toNat / 256 % 16 := by
  simp only [nibble2, BitVec.extractLsb'_toNat, Nat.shiftRight_eq_div_pow]

theorem nibble3_toNat (w : Word) : (nibble3 w).toNat = w.toNat / 16 % 16 := by
  simp only [nibble3, BitVec.extractLsb'_toNat, Nat.shiftRight_eq_div_pow]

theorem nibble4_toNat (w : Word) : (nibble4 w).toNat = w.toNat % 16 := by
  simp only [nibble4, BitVec.extractLsb'_toNat, Nat.shiftRight_eq_div_pow]
  omega

theorem fieldX_val (w : Word) : (fieldX w).val = w.toNat / 256 % 16 := nibble2_toNat w

theorem fieldY_val (w : Word) : (fieldY w).val = w.toNat / 16 % 16 := nibble3_toNat w

theorem fieldN_eq (w : Word) : fieldN w = w.toNat % 16 := nibble4_toNat w

theorem fieldKk_toNat (w : Word) : (fieldKk w).toNat = w.toNat % 256 := by
  simp only [fieldKk, BitVec.extractLsb'_toNat, Nat.shiftRight_eq_div_pow]
  omega

theorem fieldNnn_toNat (w : Word) : (fieldNnn w).toNat = w.toNat % 4096 := by
  simp only [fieldNnn, BitVec.toNat_setWidth, BitVec.extractLsb'_toNat, Nat.shiftRight_eq_div_pow]
  omega

theorem encodeAddr_toNat {op : Nat} (nnn : Word) (h : op < 16) :
    (encodeAddr op nnn).toNat = op * 4096 + nnn.toNat % 4096 := by
  simp only [encodeAddr, BitVec.toNat_ofNat]
  omega

theorem encodeXKk_toNat {op kk : Nat} (x : Reg) (h : op < 16) (hk : kk < 256) :
    (encodeXKk op x kk).toNat = op * 4096 + x.val * 256 + kk := by
  simp only [encodeXKk, BitVec.toNat_ofNat]
  omega

theorem encodeXYN_toNat {op : Nat} (x y : Reg) (n : Nat) (h : op < 16) :
    (encodeXYN op x y n).toNat = op * 4096 + x.val * 256 + y.val * 16 + n % 16 := by
  simp only [encodeXYN, BitVec.toNat_ofNat]
  omega

/-- A nibble test by value. -/
theorem bv_eq_iff_toNat {n : Nat} (b : BitVec n) (k : Nat) (h : k < 2 ^ n) :
    b = BitVec.ofNat n k ↔ b.toNat = k := by
  constructor
  · rintro rfl
    exact Nat.mod_eq_of_lt h
  · intro hb
    apply BitVec.eq_of_toNat_eq
    rw [hb, BitVec.toNat_ofNat, Nat.mod_eq_of_lt h]

/-- The mask of the rows with a one-nibble pattern (R74): `w AND 0xF000` keeps n1. -/
theorem and_F000_toNat (w : Word) : (w &&& 0xF000#16).toNat = w.toNat / 4096 * 4096 := by
  have hw : w &&& 0xF000#16 = (w >>> 12) <<< 12 := by
    ext i hi
    have : i < 16 := hi
    interval_cases i <;> simp
  have := w.isLt
  rw [hw]
  simp only [BitVec.toNat_shiftLeft, BitVec.toNat_ushiftRight, Nat.shiftLeft_eq, Nat.shiftRight_eq_div_pow]
  omega

/-- The mask of the rows with a low sub-opcode of k bits: the low part is kept as well. -/
theorem and_or_low_toNat (w : Word) (k : Nat) (hk : k ≤ 12) :
    (w &&& (0xF000#16 ||| BitVec.ofNat 16 (2 ^ k - 1))).toNat = w.toNat / 4096 * 4096 + w.toNat % 2 ^ k := by
  have hlow : w.toNat % 2 ^ k < 2 ^ 12 :=
    lt_of_lt_of_le (Nat.mod_lt _ (by positivity)) (Nat.pow_le_pow_right (by norm_num) hk)
  have hpow : 2 ^ k ≤ 2 ^ 12 := Nat.pow_le_pow_right (by norm_num) hk
  have hand := and_F000_toNat w
  rw [BitVec.toNat_and] at hand
  rw [BitVec.toNat_and, BitVec.toNat_or, Nat.and_or_distrib_left, hand, BitVec.toNat_ofNat,
    Nat.mod_eq_of_lt (by omega), Nat.and_two_pow_sub_one_eq_mod,
    show w.toNat / 4096 * 4096 = (w.toNat / 4096) <<< 12 by rw [Nat.shiftLeft_eq],
    ← Nat.shiftLeft_add_eq_or_of_lt hlow]

theorem and_F00F_toNat (w : Word) : (w &&& 0xF00F#16).toNat = w.toNat / 4096 * 4096 + w.toNat % 16 :=
  and_or_low_toNat w 4 (by norm_num)

theorem and_F0FF_toNat (w : Word) : (w &&& 0xF0FF#16).toNat = w.toNat / 4096 * 4096 + w.toNat % 256 :=
  and_or_low_toNat w 8 (by norm_num)

theorem and_FFFF (w : Word) : w &&& 0xFFFF#16 = w := by
  have : 0xFFFF#16 = BitVec.allOnes 16 := rfl
  rw [this, BitVec.and_allOnes]

/-! The decoder at each leading nibble (R74, R76). -/

theorem decodeWord_lead0 {w : Word} (h : nibble1 w = 0#4) : decodeWord w = decodeGroup0 w := by simp [decodeWord, h]
theorem decodeWord_lead1 {w : Word} (h : nibble1 w = 1#4) : decodeWord w = .ok (.jp (fieldNnn w)) := by simp [decodeWord, h]
theorem decodeWord_lead2 {w : Word} (h : nibble1 w = 2#4) : decodeWord w = .ok (.call (fieldNnn w)) := by simp [decodeWord, h]
theorem decodeWord_lead3 {w : Word} (h : nibble1 w = 3#4) : decodeWord w = .ok (.seVxKk (fieldX w) (fieldKk w)) := by simp [decodeWord, h]
theorem decodeWord_lead4 {w : Word} (h : nibble1 w = 4#4) : decodeWord w = .ok (.sneVxKk (fieldX w) (fieldKk w)) := by simp [decodeWord, h]
theorem decodeWord_lead5 {w : Word} (h : nibble1 w = 5#4) : decodeWord w = .error (.illegalWord w) := by simp [decodeWord, h]
theorem decodeWord_lead6 {w : Word} (h : nibble1 w = 6#4) : decodeWord w = .ok (.ldVxKk (fieldX w) (fieldKk w)) := by simp [decodeWord, h]
theorem decodeWord_lead7 {w : Word} (h : nibble1 w = 7#4) : decodeWord w = .ok (.addVxKk (fieldX w) (fieldKk w)) := by simp [decodeWord, h]
theorem decodeWord_lead8 {w : Word} (h : nibble1 w = 8#4) : decodeWord w = decodeGroup8 w := by simp [decodeWord, h]
theorem decodeWord_lead9 {w : Word} (h : nibble1 w = 9#4) : decodeWord w = .error (.illegalWord w) := by simp [decodeWord, h]
theorem decodeWord_leadA {w : Word} (h : nibble1 w = 10#4) : decodeWord w = .ok (.ldI (fieldNnn w)) := by simp [decodeWord, h]
theorem decodeWord_leadB {w : Word} (h : nibble1 w = 11#4) : decodeWord w = .error (.illegalWord w) := by simp [decodeWord, h]
theorem decodeWord_leadC {w : Word} (h : nibble1 w = 12#4) : decodeWord w = .ok (.rnd (fieldX w) (fieldKk w)) := by simp [decodeWord, h]
theorem decodeWord_leadD {w : Word} (h : nibble1 w = 13#4) : decodeWord w = .ok (.drw (fieldX w) (fieldY w) (fieldN w)) := by simp [decodeWord, h]
theorem decodeWord_leadE {w : Word} (h : nibble1 w = 14#4) : decodeWord w = decodeGroupE w := by simp [decodeWord, h]
theorem decodeWord_leadF {w : Word} (h : nibble1 w = 15#4) : decodeWord w = decodeGroupF w := by simp [decodeWord, h]

/-- Every word has one of the sixteen leading nibbles. -/
theorem nibble1_cases (w : Word) : nibble1 w = 0#4 ∨ nibble1 w = 1#4 ∨ nibble1 w = 2#4 ∨ nibble1 w = 3#4 ∨
    nibble1 w = 4#4 ∨ nibble1 w = 5#4 ∨ nibble1 w = 6#4 ∨ nibble1 w = 7#4 ∨ nibble1 w = 8#4 ∨ nibble1 w = 9#4 ∨
    nibble1 w = 10#4 ∨ nibble1 w = 11#4 ∨ nibble1 w = 12#4 ∨ nibble1 w = 13#4 ∨ nibble1 w = 14#4 ∨
    nibble1 w = 15#4 := by
  have h : ∀ b : BitVec 4, b = 0#4 ∨ b = 1#4 ∨ b = 2#4 ∨ b = 3#4 ∨ b = 4#4 ∨ b = 5#4 ∨ b = 6#4 ∨ b = 7#4 ∨
      b = 8#4 ∨ b = 9#4 ∨ b = 10#4 ∨ b = 11#4 ∨ b = 12#4 ∨ b = 13#4 ∨ b = 14#4 ∨ b = 15#4 := by decide
  exact h _

end Sys2Proof
end

