-- ==== Sys2Proof/Laws/Memory.lean ====
section
/-! SUPPORT. The laws of memory: a read after a write, and the canonical form kept by every memory operation. -/

namespace Sys2Proof.Machine

/-- A cell in front of a memory, read back. -/
theorem Memory.read_cons (a : Nat) (b : Byte) (m : Memory) (c : Nat) (h : a ≠ c ∨ b ≠ unlisted a ∨ m.read a = unlisted a) :
    (Memory.cons a b m).read c = if c = a then b else m.read c := by
  unfold Memory.cons
  split
  · rename_i hb
    by_cases hc : c = a
    · subst hc
      simp_all
    · simp [hc]
  · by_cases hc : c = a
    · simp [Memory.read, hc]
    · simp [Memory.read, hc, Ne.symm hc]

/-- In canonical form from `lo` on, an address below `lo` is unlisted. -/
theorem Memory.read_below (m : Memory) : ∀ (lo c : Nat), m.wfFrom lo = true → c < lo → m.read c = unlisted c := by
  induction m with
  | nil => intros; rfl
  | cons p m ih =>
    obtain ⟨k, b⟩ := p
    intro lo c h hc
    simp only [Memory.wfFrom, Bool.and_eq_true, decide_eq_true_eq] at h
    have hk : k ≠ c := by omega
    simp only [Memory.read, if_neg hk]
    exact ih (k + 1) c h.2 (by omega)

/-- A read after a write (R53, R54, R60): the byte written at its address, the old byte at every other. -/
theorem Memory.read_write (m : Memory) : ∀ (lo a : Nat) (b : Byte) (c : Nat), m.wfFrom lo = true →
    (m.write a b).read c = if c = a then b else m.read c := by
  induction m with
  | nil =>
    intro lo a b c _
    exact Memory.read_cons a b [] c (Or.inr (Or.inr rfl))
  | cons p m ih =>
    obtain ⟨k, d⟩ := p
    intro lo a b c h
    have h' := h
    simp only [Memory.wfFrom, Bool.and_eq_true, decide_eq_true_eq] at h'
    unfold Memory.write
    by_cases h1 : a < k
    · rw [if_pos h1]
      refine Memory.read_cons a b _ c (Or.inr (Or.inr ?_))
      exact Memory.read_below _ k a (by simp_all [Memory.wfFrom]) h1
    · rw [if_neg h1]
      by_cases h2 : a = k
      · subst h2
        rw [if_pos rfl, Memory.read_cons a b m c (Or.inr (Or.inr (Memory.read_below m (a + 1) a h'.2 (by omega))))]
        by_cases hc : c = a
        · simp [hc]
        · simp [Memory.read, hc, Ne.symm hc]
      · rw [if_neg h2]
        by_cases hc : k = c
        · subst hc
          simp [Memory.read, Ne.symm h2]
        · simp only [Memory.read, if_neg hc]
          exact ih (k + 1) a b c h'.2

/-- A cell in front keeps the canonical form. -/
theorem Memory.wfFrom_cons {lo a : Nat} {b : Byte} {m : Memory} (hlo : lo ≤ a) (ha : a < memSize)
    (h : m.wfFrom (a + 1) = true) (hw : m.wfFrom lo = true) : (Memory.cons a b m).wfFrom lo = true := by
  unfold Memory.cons
  split
  · exact hw
  · simp [Memory.wfFrom, *]

/-- Canonical form from an address on is canonical form from any lower one on. -/
theorem Memory.wfFrom_mono {m : Memory} {lo lo' : Nat} (hle : lo' ≤ lo) (h : m.wfFrom lo = true) :
    m.wfFrom lo' = true := by
  cases m with
  | nil => rfl
  | cons p m =>
    obtain ⟨k, b⟩ := p
    simp only [Memory.wfFrom, Bool.and_eq_true, decide_eq_true_eq] at h ⊢
    exact ⟨⟨⟨by omega, h.1.1.2⟩, h.1.2⟩, h.2⟩

/-- A write inside memory keeps the canonical form, from any address on that it does not undercut. -/
theorem Memory.wfFrom_write (m : Memory) : ∀ (lo a : Nat) (b : Byte), m.wfFrom lo = true → lo ≤ a → a < memSize →
    (m.write a b).wfFrom lo = true := by
  induction m with
  | nil =>
    intro lo a b _ hlo ha
    exact Memory.wfFrom_cons hlo ha rfl rfl
  | cons p m ih =>
    obtain ⟨k, d⟩ := p
    intro lo a b h hlo ha
    have h' := h
    simp only [Memory.wfFrom, Bool.and_eq_true, decide_eq_true_eq] at h'
    unfold Memory.write
    split
    · rename_i h1
      refine Memory.wfFrom_cons hlo ha ?_ h
      simp only [Memory.wfFrom, Bool.and_eq_true, decide_eq_true_eq]
      exact ⟨⟨⟨by omega, h'.1.1.2⟩, h'.1.2⟩, h'.2⟩
    · split
      · rename_i h1 h2
        subst h2
        exact Memory.wfFrom_cons hlo ha h'.2 (Memory.wfFrom_mono (by omega) h'.2)
      · rename_i h1 h2
        simp only [Memory.wfFrom, Bool.and_eq_true, decide_eq_true_eq]
        exact ⟨h'.1, ih (k + 1) a b h'.2 (by omega) ha⟩

/-- A write inside memory keeps the canonical form (R50, R54). -/
theorem Memory.wf_write {m : Memory} {a : Nat} (b : Byte) (h : m.wf = true) (ha : a < memSize) :
    (m.write a b).wf = true :=
  Memory.wfFrom_write m 0 a b h (Nat.zero_le a) ha

/-- Bytes written inside memory keep the canonical form (R154, R242). -/
theorem Memory.wf_writeBytes (bs : List Byte) : ∀ (m : Memory) (a : Nat), m.wf = true → a + bs.length ≤ memSize →
    (m.writeBytes a bs).wf = true := by
  induction bs with
  | nil => intro m a h _; exact h
  | cons b bs ih =>
    intro m a h ha
    simp only [List.length_cons] at ha
    exact ih _ _ (Memory.wf_write b h (by omega)) (by omega)

/-- A read after bytes were written inside a canonical memory: the bytes in their places, the old bytes elsewhere. -/
theorem Memory.read_writeBytes (bs : List Byte) : ∀ (m : Memory) (a c : Nat), m.wf = true →
    a + bs.length ≤ memSize →
    (m.writeBytes a bs).read c = if h : a ≤ c ∧ c < a + bs.length then bs[c - a]'(by omega) else m.read c := by
  induction bs with
  | nil =>
    intro m a c _ _
    simp only [Memory.writeBytes, List.length_nil]
    rw [dif_neg (by omega)]
  | cons b bs ih =>
    intro m a c h ha
    simp only [List.length_cons] at ha
    rw [Memory.writeBytes, ih _ _ _ (Memory.wf_write b h (by omega)) (by omega), Memory.read_write m 0 a b c h]
    by_cases hc : c = a
    · subst hc
      simp
    · by_cases h1 : a + 1 ≤ c ∧ c < a + 1 + bs.length
      · rw [dif_pos h1, dif_pos (by simp only [List.length_cons]; omega)]
        have : c - a = (c - (a + 1)) + 1 := by omega
        simp [this]
      · rw [dif_neg h1, if_neg hc, dif_neg (by simp only [List.length_cons]; omega)]

/-- The reset memory, nothing listed, is canonical. -/
theorem Memory.wf_nil : Memory.wf [] = true := rfl

/-- An address outside memory is unlisted in a canonical memory. -/
theorem Memory.read_outside (m : Memory) : ∀ (lo c : Nat), m.wfFrom lo = true → memSize ≤ c → m.read c = unlisted c := by
  induction m with
  | nil => intros; rfl
  | cons p m ih =>
    obtain ⟨k, b⟩ := p
    intro lo c h hc
    simp only [Memory.wfFrom, Bool.and_eq_true, decide_eq_true_eq] at h
    have hk : k ≠ c := by omega
    simp only [Memory.read, if_neg hk]
    exact ih (k + 1) c h.2 hc

end Sys2Proof.Machine
end

