-- ==== Sys2Proof/Laws/State.lean ====
section
/-! SUPPORT. One lemma per field per update of the state, true by rfl, and the reads of registers, keys, pixels and
bytes through every update. -/

namespace Sys2Proof.Machine

variable (s : State)

@[simp] theorem State.setReg_v (x : Reg) (b : Byte) : (s.setReg x b).v = s.v.set x b := rfl
@[simp] theorem State.setReg_index (x : Reg) (b : Byte) : (s.setReg x b).index = s.index := rfl
@[simp] theorem State.setReg_pc (x : Reg) (b : Byte) : (s.setReg x b).pc = s.pc := rfl
@[simp] theorem State.setReg_stack (x : Reg) (b : Byte) : (s.setReg x b).stack = s.stack := rfl
@[simp] theorem State.setReg_dt (x : Reg) (b : Byte) : (s.setReg x b).dt = s.dt := rfl
@[simp] theorem State.setReg_st (x : Reg) (b : Byte) : (s.setReg x b).st = s.st := rfl
@[simp] theorem State.setReg_fb (x : Reg) (b : Byte) : (s.setReg x b).fb = s.fb := rfl
@[simp] theorem State.setReg_keys (x : Reg) (b : Byte) : (s.setReg x b).keys = s.keys := rfl
@[simp] theorem State.setReg_mem (x : Reg) (b : Byte) : (s.setReg x b).mem = s.mem := rfl
@[simp] theorem State.setReg_fault (x : Reg) (b : Byte) : (s.setReg x b).fault = s.fault := rfl
@[simp] theorem State.setReg_params (x : Reg) (b : Byte) : (s.setReg x b).params = s.params := rfl
@[simp] theorem State.setReg_draws (x : Reg) (b : Byte) : (s.setReg x b).draws = s.draws := rfl
@[simp] theorem State.setReg_pixel (x : Reg) (b : Byte) (px : Fin 64) (py : Fin 32) : (s.setReg x b).pixel px py = s.pixel px py := rfl
@[simp] theorem State.setReg_key (x : Reg) (b : Byte) (j : Key) : (s.setReg x b).key j = s.key j := rfl
@[simp] theorem State.setReg_byteAt (x : Reg) (b : Byte) (c : Nat) : (s.setReg x b).byteAt c = s.byteAt c := rfl

@[simp] theorem State.setIndex_v (a : Word) : (s.setIndex a).v = s.v := rfl
@[simp] theorem State.setIndex_index (a : Word) : (s.setIndex a).index = a := rfl
@[simp] theorem State.setIndex_pc (a : Word) : (s.setIndex a).pc = s.pc := rfl
@[simp] theorem State.setIndex_stack (a : Word) : (s.setIndex a).stack = s.stack := rfl
@[simp] theorem State.setIndex_dt (a : Word) : (s.setIndex a).dt = s.dt := rfl
@[simp] theorem State.setIndex_st (a : Word) : (s.setIndex a).st = s.st := rfl
@[simp] theorem State.setIndex_fb (a : Word) : (s.setIndex a).fb = s.fb := rfl
@[simp] theorem State.setIndex_keys (a : Word) : (s.setIndex a).keys = s.keys := rfl
@[simp] theorem State.setIndex_mem (a : Word) : (s.setIndex a).mem = s.mem := rfl
@[simp] theorem State.setIndex_fault (a : Word) : (s.setIndex a).fault = s.fault := rfl
@[simp] theorem State.setIndex_params (a : Word) : (s.setIndex a).params = s.params := rfl
@[simp] theorem State.setIndex_draws (a : Word) : (s.setIndex a).draws = s.draws := rfl
@[simp] theorem State.setIndex_reg (a : Word) (y : Reg) : (s.setIndex a).reg y = s.reg y := rfl
@[simp] theorem State.setIndex_pixel (a : Word) (px : Fin 64) (py : Fin 32) : (s.setIndex a).pixel px py = s.pixel px py := rfl
@[simp] theorem State.setIndex_key (a : Word) (j : Key) : (s.setIndex a).key j = s.key j := rfl
@[simp] theorem State.setIndex_byteAt (a : Word) (c : Nat) : (s.setIndex a).byteAt c = s.byteAt c := rfl

@[simp] theorem State.setPc_v (a : Word) : (s.setPc a).v = s.v := rfl
@[simp] theorem State.setPc_index (a : Word) : (s.setPc a).index = s.index := rfl
@[simp] theorem State.setPc_pc (a : Word) : (s.setPc a).pc = a := rfl
@[simp] theorem State.setPc_stack (a : Word) : (s.setPc a).stack = s.stack := rfl
@[simp] theorem State.setPc_dt (a : Word) : (s.setPc a).dt = s.dt := rfl
@[simp] theorem State.setPc_st (a : Word) : (s.setPc a).st = s.st := rfl
@[simp] theorem State.setPc_fb (a : Word) : (s.setPc a).fb = s.fb := rfl
@[simp] theorem State.setPc_keys (a : Word) : (s.setPc a).keys = s.keys := rfl
@[simp] theorem State.setPc_mem (a : Word) : (s.setPc a).mem = s.mem := rfl
@[simp] theorem State.setPc_fault (a : Word) : (s.setPc a).fault = s.fault := rfl
@[simp] theorem State.setPc_params (a : Word) : (s.setPc a).params = s.params := rfl
@[simp] theorem State.setPc_draws (a : Word) : (s.setPc a).draws = s.draws := rfl
@[simp] theorem State.setPc_reg (a : Word) (y : Reg) : (s.setPc a).reg y = s.reg y := rfl
@[simp] theorem State.setPc_pixel (a : Word) (px : Fin 64) (py : Fin 32) : (s.setPc a).pixel px py = s.pixel px py := rfl
@[simp] theorem State.setPc_key (a : Word) (j : Key) : (s.setPc a).key j = s.key j := rfl
@[simp] theorem State.setPc_byteAt (a : Word) (c : Nat) : (s.setPc a).byteAt c = s.byteAt c := rfl

@[simp] theorem State.setStack_v (l : List Word) : (s.setStack l).v = s.v := rfl
@[simp] theorem State.setStack_index (l : List Word) : (s.setStack l).index = s.index := rfl
@[simp] theorem State.setStack_pc (l : List Word) : (s.setStack l).pc = s.pc := rfl
@[simp] theorem State.setStack_stack (l : List Word) : (s.setStack l).stack = l := rfl
@[simp] theorem State.setStack_dt (l : List Word) : (s.setStack l).dt = s.dt := rfl
@[simp] theorem State.setStack_st (l : List Word) : (s.setStack l).st = s.st := rfl
@[simp] theorem State.setStack_fb (l : List Word) : (s.setStack l).fb = s.fb := rfl
@[simp] theorem State.setStack_keys (l : List Word) : (s.setStack l).keys = s.keys := rfl
@[simp] theorem State.setStack_mem (l : List Word) : (s.setStack l).mem = s.mem := rfl
@[simp] theorem State.setStack_fault (l : List Word) : (s.setStack l).fault = s.fault := rfl
@[simp] theorem State.setStack_params (l : List Word) : (s.setStack l).params = s.params := rfl
@[simp] theorem State.setStack_draws (l : List Word) : (s.setStack l).draws = s.draws := rfl
@[simp] theorem State.setStack_reg (l : List Word) (y : Reg) : (s.setStack l).reg y = s.reg y := rfl
@[simp] theorem State.setStack_pixel (l : List Word) (px : Fin 64) (py : Fin 32) : (s.setStack l).pixel px py = s.pixel px py := rfl
@[simp] theorem State.setStack_key (l : List Word) (j : Key) : (s.setStack l).key j = s.key j := rfl
@[simp] theorem State.setStack_byteAt (l : List Word) (c : Nat) : (s.setStack l).byteAt c = s.byteAt c := rfl

@[simp] theorem State.setDt_v (b : Byte) : (s.setDt b).v = s.v := rfl
@[simp] theorem State.setDt_index (b : Byte) : (s.setDt b).index = s.index := rfl
@[simp] theorem State.setDt_pc (b : Byte) : (s.setDt b).pc = s.pc := rfl
@[simp] theorem State.setDt_stack (b : Byte) : (s.setDt b).stack = s.stack := rfl
@[simp] theorem State.setDt_dt (b : Byte) : (s.setDt b).dt = b := rfl
@[simp] theorem State.setDt_st (b : Byte) : (s.setDt b).st = s.st := rfl
@[simp] theorem State.setDt_fb (b : Byte) : (s.setDt b).fb = s.fb := rfl
@[simp] theorem State.setDt_keys (b : Byte) : (s.setDt b).keys = s.keys := rfl
@[simp] theorem State.setDt_mem (b : Byte) : (s.setDt b).mem = s.mem := rfl
@[simp] theorem State.setDt_fault (b : Byte) : (s.setDt b).fault = s.fault := rfl
@[simp] theorem State.setDt_params (b : Byte) : (s.setDt b).params = s.params := rfl
@[simp] theorem State.setDt_draws (b : Byte) : (s.setDt b).draws = s.draws := rfl
@[simp] theorem State.setDt_reg (b : Byte) (y : Reg) : (s.setDt b).reg y = s.reg y := rfl
@[simp] theorem State.setDt_pixel (b : Byte) (px : Fin 64) (py : Fin 32) : (s.setDt b).pixel px py = s.pixel px py := rfl
@[simp] theorem State.setDt_key (b : Byte) (j : Key) : (s.setDt b).key j = s.key j := rfl
@[simp] theorem State.setDt_byteAt (b : Byte) (c : Nat) : (s.setDt b).byteAt c = s.byteAt c := rfl

@[simp] theorem State.setSt_v (b : Byte) : (s.setSt b).v = s.v := rfl
@[simp] theorem State.setSt_index (b : Byte) : (s.setSt b).index = s.index := rfl
@[simp] theorem State.setSt_pc (b : Byte) : (s.setSt b).pc = s.pc := rfl
@[simp] theorem State.setSt_stack (b : Byte) : (s.setSt b).stack = s.stack := rfl
@[simp] theorem State.setSt_dt (b : Byte) : (s.setSt b).dt = s.dt := rfl
@[simp] theorem State.setSt_st (b : Byte) : (s.setSt b).st = b := rfl
@[simp] theorem State.setSt_fb (b : Byte) : (s.setSt b).fb = s.fb := rfl
@[simp] theorem State.setSt_keys (b : Byte) : (s.setSt b).keys = s.keys := rfl
@[simp] theorem State.setSt_mem (b : Byte) : (s.setSt b).mem = s.mem := rfl
@[simp] theorem State.setSt_fault (b : Byte) : (s.setSt b).fault = s.fault := rfl
@[simp] theorem State.setSt_params (b : Byte) : (s.setSt b).params = s.params := rfl
@[simp] theorem State.setSt_draws (b : Byte) : (s.setSt b).draws = s.draws := rfl
@[simp] theorem State.setSt_reg (b : Byte) (y : Reg) : (s.setSt b).reg y = s.reg y := rfl
@[simp] theorem State.setSt_pixel (b : Byte) (px : Fin 64) (py : Fin 32) : (s.setSt b).pixel px py = s.pixel px py := rfl
@[simp] theorem State.setSt_key (b : Byte) (j : Key) : (s.setSt b).key j = s.key j := rfl
@[simp] theorem State.setSt_byteAt (b : Byte) (c : Nat) : (s.setSt b).byteAt c = s.byteAt c := rfl

@[simp] theorem State.setFb_v (f : Screen) : (s.setFb f).v = s.v := rfl
@[simp] theorem State.setFb_index (f : Screen) : (s.setFb f).index = s.index := rfl
@[simp] theorem State.setFb_pc (f : Screen) : (s.setFb f).pc = s.pc := rfl
@[simp] theorem State.setFb_stack (f : Screen) : (s.setFb f).stack = s.stack := rfl
@[simp] theorem State.setFb_dt (f : Screen) : (s.setFb f).dt = s.dt := rfl
@[simp] theorem State.setFb_st (f : Screen) : (s.setFb f).st = s.st := rfl
@[simp] theorem State.setFb_fb (f : Screen) : (s.setFb f).fb = f := rfl
@[simp] theorem State.setFb_keys (f : Screen) : (s.setFb f).keys = s.keys := rfl
@[simp] theorem State.setFb_mem (f : Screen) : (s.setFb f).mem = s.mem := rfl
@[simp] theorem State.setFb_fault (f : Screen) : (s.setFb f).fault = s.fault := rfl
@[simp] theorem State.setFb_params (f : Screen) : (s.setFb f).params = s.params := rfl
@[simp] theorem State.setFb_draws (f : Screen) : (s.setFb f).draws = s.draws := rfl
@[simp] theorem State.setFb_reg (f : Screen) (y : Reg) : (s.setFb f).reg y = s.reg y := rfl
@[simp] theorem State.setFb_key (f : Screen) (j : Key) : (s.setFb f).key j = s.key j := rfl
@[simp] theorem State.setFb_byteAt (f : Screen) (c : Nat) : (s.setFb f).byteAt c = s.byteAt c := rfl

@[simp] theorem State.setKey_v (k : Key) (p : Bool) : (s.setKey k p).v = s.v := rfl
@[simp] theorem State.setKey_index (k : Key) (p : Bool) : (s.setKey k p).index = s.index := rfl
@[simp] theorem State.setKey_pc (k : Key) (p : Bool) : (s.setKey k p).pc = s.pc := rfl
@[simp] theorem State.setKey_stack (k : Key) (p : Bool) : (s.setKey k p).stack = s.stack := rfl
@[simp] theorem State.setKey_dt (k : Key) (p : Bool) : (s.setKey k p).dt = s.dt := rfl
@[simp] theorem State.setKey_st (k : Key) (p : Bool) : (s.setKey k p).st = s.st := rfl
@[simp] theorem State.setKey_fb (k : Key) (p : Bool) : (s.setKey k p).fb = s.fb := rfl
@[simp] theorem State.setKey_keys (k : Key) (p : Bool) : (s.setKey k p).keys = s.keys.set k p := rfl
@[simp] theorem State.setKey_mem (k : Key) (p : Bool) : (s.setKey k p).mem = s.mem := rfl
@[simp] theorem State.setKey_fault (k : Key) (p : Bool) : (s.setKey k p).fault = s.fault := rfl
@[simp] theorem State.setKey_params (k : Key) (p : Bool) : (s.setKey k p).params = s.params := rfl
@[simp] theorem State.setKey_draws (k : Key) (p : Bool) : (s.setKey k p).draws = s.draws := rfl
@[simp] theorem State.setKey_reg (k : Key) (p : Bool) (y : Reg) : (s.setKey k p).reg y = s.reg y := rfl
@[simp] theorem State.setKey_pixel (k : Key) (p : Bool) (px : Fin 64) (py : Fin 32) : (s.setKey k p).pixel px py = s.pixel px py := rfl
@[simp] theorem State.setKey_byteAt (k : Key) (p : Bool) (c : Nat) : (s.setKey k p).byteAt c = s.byteAt c := rfl

@[simp] theorem State.setMem_v (m : Memory) : (s.setMem m).v = s.v := rfl
@[simp] theorem State.setMem_index (m : Memory) : (s.setMem m).index = s.index := rfl
@[simp] theorem State.setMem_pc (m : Memory) : (s.setMem m).pc = s.pc := rfl
@[simp] theorem State.setMem_stack (m : Memory) : (s.setMem m).stack = s.stack := rfl
@[simp] theorem State.setMem_dt (m : Memory) : (s.setMem m).dt = s.dt := rfl
@[simp] theorem State.setMem_st (m : Memory) : (s.setMem m).st = s.st := rfl
@[simp] theorem State.setMem_fb (m : Memory) : (s.setMem m).fb = s.fb := rfl
@[simp] theorem State.setMem_keys (m : Memory) : (s.setMem m).keys = s.keys := rfl
@[simp] theorem State.setMem_mem (m : Memory) : (s.setMem m).mem = m := rfl
@[simp] theorem State.setMem_fault (m : Memory) : (s.setMem m).fault = s.fault := rfl
@[simp] theorem State.setMem_params (m : Memory) : (s.setMem m).params = s.params := rfl
@[simp] theorem State.setMem_draws (m : Memory) : (s.setMem m).draws = s.draws := rfl
@[simp] theorem State.setMem_reg (m : Memory) (y : Reg) : (s.setMem m).reg y = s.reg y := rfl
@[simp] theorem State.setMem_pixel (m : Memory) (px : Fin 64) (py : Fin 32) : (s.setMem m).pixel px py = s.pixel px py := rfl
@[simp] theorem State.setMem_key (m : Memory) (j : Key) : (s.setMem m).key j = s.key j := rfl

@[simp] theorem State.setFault_v (r : Option FaultRecord) : (s.setFault r).v = s.v := rfl
@[simp] theorem State.setFault_index (r : Option FaultRecord) : (s.setFault r).index = s.index := rfl
@[simp] theorem State.setFault_pc (r : Option FaultRecord) : (s.setFault r).pc = s.pc := rfl
@[simp] theorem State.setFault_stack (r : Option FaultRecord) : (s.setFault r).stack = s.stack := rfl
@[simp] theorem State.setFault_dt (r : Option FaultRecord) : (s.setFault r).dt = s.dt := rfl
@[simp] theorem State.setFault_st (r : Option FaultRecord) : (s.setFault r).st = s.st := rfl
@[simp] theorem State.setFault_fb (r : Option FaultRecord) : (s.setFault r).fb = s.fb := rfl
@[simp] theorem State.setFault_keys (r : Option FaultRecord) : (s.setFault r).keys = s.keys := rfl
@[simp] theorem State.setFault_mem (r : Option FaultRecord) : (s.setFault r).mem = s.mem := rfl
@[simp] theorem State.setFault_fault (r : Option FaultRecord) : (s.setFault r).fault = r := rfl
@[simp] theorem State.setFault_params (r : Option FaultRecord) : (s.setFault r).params = s.params := rfl
@[simp] theorem State.setFault_draws (r : Option FaultRecord) : (s.setFault r).draws = s.draws := rfl
@[simp] theorem State.setFault_reg (r : Option FaultRecord) (y : Reg) : (s.setFault r).reg y = s.reg y := rfl
@[simp] theorem State.setFault_pixel (r : Option FaultRecord) (px : Fin 64) (py : Fin 32) : (s.setFault r).pixel px py = s.pixel px py := rfl
@[simp] theorem State.setFault_key (r : Option FaultRecord) (j : Key) : (s.setFault r).key j = s.key j := rfl
@[simp] theorem State.setFault_byteAt (r : Option FaultRecord) (c : Nat) : (s.setFault r).byteAt c = s.byteAt c := rfl

@[simp] theorem State.countDraw_v : (s.countDraw).v = s.v := rfl
@[simp] theorem State.countDraw_index : (s.countDraw).index = s.index := rfl
@[simp] theorem State.countDraw_pc : (s.countDraw).pc = s.pc := rfl
@[simp] theorem State.countDraw_stack : (s.countDraw).stack = s.stack := rfl
@[simp] theorem State.countDraw_dt : (s.countDraw).dt = s.dt := rfl
@[simp] theorem State.countDraw_st : (s.countDraw).st = s.st := rfl
@[simp] theorem State.countDraw_fb : (s.countDraw).fb = s.fb := rfl
@[simp] theorem State.countDraw_keys : (s.countDraw).keys = s.keys := rfl
@[simp] theorem State.countDraw_mem : (s.countDraw).mem = s.mem := rfl
@[simp] theorem State.countDraw_fault : (s.countDraw).fault = s.fault := rfl
@[simp] theorem State.countDraw_params : (s.countDraw).params = s.params := rfl
@[simp] theorem State.countDraw_draws : (s.countDraw).draws = s.draws + 1 := rfl
@[simp] theorem State.countDraw_reg (y : Reg) : (s.countDraw).reg y = s.reg y := rfl
@[simp] theorem State.countDraw_pixel (px : Fin 64) (py : Fin 32) : (s.countDraw).pixel px py = s.pixel px py := rfl
@[simp] theorem State.countDraw_key (j : Key) : (s.countDraw).key j = s.key j := rfl
@[simp] theorem State.countDraw_byteAt (c : Nat) : (s.countDraw).byteAt c = s.byteAt c := rfl

@[simp] theorem State.push_v (a : Word) : (s.push a).v = s.v := rfl
@[simp] theorem State.push_index (a : Word) : (s.push a).index = s.index := rfl
@[simp] theorem State.push_pc (a : Word) : (s.push a).pc = s.pc := rfl
@[simp] theorem State.push_stack (a : Word) : (s.push a).stack = s.stack ++ [a] := rfl
@[simp] theorem State.push_dt (a : Word) : (s.push a).dt = s.dt := rfl
@[simp] theorem State.push_st (a : Word) : (s.push a).st = s.st := rfl
@[simp] theorem State.push_fb (a : Word) : (s.push a).fb = s.fb := rfl
@[simp] theorem State.push_keys (a : Word) : (s.push a).keys = s.keys := rfl
@[simp] theorem State.push_mem (a : Word) : (s.push a).mem = s.mem := rfl
@[simp] theorem State.push_fault (a : Word) : (s.push a).fault = s.fault := rfl
@[simp] theorem State.push_params (a : Word) : (s.push a).params = s.params := rfl
@[simp] theorem State.push_draws (a : Word) : (s.push a).draws = s.draws := rfl
@[simp] theorem State.push_reg (a : Word) (y : Reg) : (s.push a).reg y = s.reg y := rfl
@[simp] theorem State.push_pixel (a : Word) (px : Fin 64) (py : Fin 32) : (s.push a).pixel px py = s.pixel px py := rfl
@[simp] theorem State.push_key (a : Word) (j : Key) : (s.push a).key j = s.key j := rfl
@[simp] theorem State.push_byteAt (a : Word) (c : Nat) : (s.push a).byteAt c = s.byteAt c := rfl

@[simp] theorem State.advance_v : (s.advance).v = s.v := rfl
@[simp] theorem State.advance_index : (s.advance).index = s.index := rfl
@[simp] theorem State.advance_pc : (s.advance).pc = s.pc + 2 := rfl
@[simp] theorem State.advance_stack : (s.advance).stack = s.stack := rfl
@[simp] theorem State.advance_dt : (s.advance).dt = s.dt := rfl
@[simp] theorem State.advance_st : (s.advance).st = s.st := rfl
@[simp] theorem State.advance_fb : (s.advance).fb = s.fb := rfl
@[simp] theorem State.advance_keys : (s.advance).keys = s.keys := rfl
@[simp] theorem State.advance_mem : (s.advance).mem = s.mem := rfl
@[simp] theorem State.advance_fault : (s.advance).fault = s.fault := rfl
@[simp] theorem State.advance_params : (s.advance).params = s.params := rfl
@[simp] theorem State.advance_draws : (s.advance).draws = s.draws := rfl
@[simp] theorem State.advance_reg (y : Reg) : (s.advance).reg y = s.reg y := rfl
@[simp] theorem State.advance_pixel (px : Fin 64) (py : Fin 32) : (s.advance).pixel px py = s.pixel px py := rfl
@[simp] theorem State.advance_key (j : Key) : (s.advance).key j = s.key j := rfl
@[simp] theorem State.advance_byteAt (c : Nat) : (s.advance).byteAt c = s.byteAt c := rfl

@[simp] theorem State.withCallMode_v (m : CallMode) : (s.withCallMode m).v = s.v := rfl
@[simp] theorem State.withCallMode_index (m : CallMode) : (s.withCallMode m).index = s.index := rfl
@[simp] theorem State.withCallMode_pc (m : CallMode) : (s.withCallMode m).pc = s.pc := rfl
@[simp] theorem State.withCallMode_stack (m : CallMode) : (s.withCallMode m).stack = s.stack := rfl
@[simp] theorem State.withCallMode_dt (m : CallMode) : (s.withCallMode m).dt = s.dt := rfl
@[simp] theorem State.withCallMode_st (m : CallMode) : (s.withCallMode m).st = s.st := rfl
@[simp] theorem State.withCallMode_fb (m : CallMode) : (s.withCallMode m).fb = s.fb := rfl
@[simp] theorem State.withCallMode_keys (m : CallMode) : (s.withCallMode m).keys = s.keys := rfl
@[simp] theorem State.withCallMode_mem (m : CallMode) : (s.withCallMode m).mem = s.mem := rfl
@[simp] theorem State.withCallMode_fault (m : CallMode) : (s.withCallMode m).fault = s.fault := rfl
@[simp] theorem State.withCallMode_params (m : CallMode) : (s.withCallMode m).params = { s.params with callMode := m } := rfl
@[simp] theorem State.withCallMode_draws (m : CallMode) : (s.withCallMode m).draws = s.draws := rfl
@[simp] theorem State.withCallMode_reg (m : CallMode) (y : Reg) : (s.withCallMode m).reg y = s.reg y := rfl
@[simp] theorem State.withCallMode_pixel (m : CallMode) (px : Fin 64) (py : Fin 32) : (s.withCallMode m).pixel px py = s.pixel px py := rfl
@[simp] theorem State.withCallMode_key (m : CallMode) (j : Key) : (s.withCallMode m).key j = s.key j := rfl
@[simp] theorem State.withCallMode_byteAt (m : CallMode) (c : Nat) : (s.withCallMode m).byteAt c = s.byteAt c := rfl

@[simp] theorem State.skipIf_v (c : Bool) : (s.skipIf c).v = s.v := rfl
@[simp] theorem State.enterCall_v (a : Word) : (s.enterCall a).v = s.v := rfl
@[simp] theorem State.skipIf_index (c : Bool) : (s.skipIf c).index = s.index := rfl
@[simp] theorem State.enterCall_index (a : Word) : (s.enterCall a).index = s.index := rfl
@[simp] theorem State.skipIf_pc (c : Bool) : (s.skipIf c).pc = if c then s.pc + 4 else s.pc + 2 := rfl
@[simp] theorem State.enterCall_pc (a : Word) : (s.enterCall a).pc = a := rfl
@[simp] theorem State.skipIf_stack (c : Bool) : (s.skipIf c).stack = s.stack := rfl
@[simp] theorem State.enterCall_stack (a : Word) : (s.enterCall a).stack = s.stack ++ [s.pc] := rfl
@[simp] theorem State.skipIf_dt (c : Bool) : (s.skipIf c).dt = s.dt := rfl
@[simp] theorem State.enterCall_dt (a : Word) : (s.enterCall a).dt = s.dt := rfl
@[simp] theorem State.skipIf_st (c : Bool) : (s.skipIf c).st = s.st := rfl
@[simp] theorem State.enterCall_st (a : Word) : (s.enterCall a).st = s.st := rfl
@[simp] theorem State.skipIf_fb (c : Bool) : (s.skipIf c).fb = s.fb := rfl
@[simp] theorem State.enterCall_fb (a : Word) : (s.enterCall a).fb = s.fb := rfl
@[simp] theorem State.skipIf_keys (c : Bool) : (s.skipIf c).keys = s.keys := rfl
@[simp] theorem State.enterCall_keys (a : Word) : (s.enterCall a).keys = s.keys := rfl
@[simp] theorem State.skipIf_mem (c : Bool) : (s.skipIf c).mem = s.mem := rfl
@[simp] theorem State.enterCall_mem (a : Word) : (s.enterCall a).mem = s.mem := rfl
@[simp] theorem State.skipIf_fault (c : Bool) : (s.skipIf c).fault = s.fault := rfl
@[simp] theorem State.enterCall_fault (a : Word) : (s.enterCall a).fault = s.fault := rfl
@[simp] theorem State.skipIf_params (c : Bool) : (s.skipIf c).params = s.params := rfl
@[simp] theorem State.enterCall_params (a : Word) : (s.enterCall a).params = s.params := rfl
@[simp] theorem State.skipIf_draws (c : Bool) : (s.skipIf c).draws = s.draws := rfl
@[simp] theorem State.enterCall_draws (a : Word) : (s.enterCall a).draws = s.draws := rfl
@[simp] theorem State.skipIf_reg (c : Bool) (y : Reg) : (s.skipIf c).reg y = s.reg y := rfl
@[simp] theorem State.skipIf_pixel (c : Bool) (px : Fin 64) (py : Fin 32) : (s.skipIf c).pixel px py = s.pixel px py := rfl
@[simp] theorem State.skipIf_key (c : Bool) (j : Key) : (s.skipIf c).key j = s.key j := rfl
@[simp] theorem State.skipIf_byteAt (c : Bool) (d : Nat) : (s.skipIf c).byteAt d = s.byteAt d := rfl
@[simp] theorem State.enterCall_reg (a : Word) (y : Reg) : (s.enterCall a).reg y = s.reg y := rfl
@[simp] theorem State.enterCall_pixel (a : Word) (px : Fin 64) (py : Fin 32) : (s.enterCall a).pixel px py = s.pixel px py := rfl
@[simp] theorem State.enterCall_key (a : Word) (j : Key) : (s.enterCall a).key j = s.key j := rfl
@[simp] theorem State.enterCall_byteAt (a : Word) (d : Nat) : (s.enterCall a).byteAt d = s.byteAt d := rfl

/-- A register read after a register write (R20). -/
@[simp] theorem State.setReg_reg (x : Reg) (b : Byte) (r : Reg) :
    (s.setReg x b).reg r = if r = x then b else s.reg r := by
  simp only [State.reg, State.setReg, Fin.getElem_fin, Vector.getElem_set, Fin.ext_iff, eq_comm]

/-- A key read after a key write (R222). -/
@[simp] theorem State.setKey_key (k : Key) (p : Bool) (j : Key) :
    (s.setKey k p).key j = if j = k then p else s.key j := by
  simp only [State.key, State.setKey, Fin.getElem_fin, Vector.getElem_set, Fin.ext_iff, eq_comm]

/-- A pixel of a replaced framebuffer (R30). -/
@[simp] theorem State.setFb_pixel (f : Screen) (px : Fin 64) (py : Fin 32) :
    (s.setFb f).pixel px py = f.get px py := rfl

/-- A byte of a replaced memory (R32). -/
@[simp] theorem State.setMem_byteAt (m : Memory) (a : Nat) :
    (s.setMem m).byteAt a = if a < memSize then some (m.read a) else none := rfl

/-- Two states with the same fields are the same state: registers, pixels and keys compared one by one. -/
theorem State.ext_reads {s t : State} (hv : ∀ r, t.reg r = s.reg r) (hi : t.index = s.index) (hp : t.pc = s.pc)
    (hs : t.stack = s.stack) (hd : t.dt = s.dt) (ht : t.st = s.st)
    (hf : ∀ px py, t.pixel px py = s.pixel px py) (hk : ∀ k, t.key k = s.key k) (hm : t.mem = s.mem)
    (hx : t.fault = s.fault) (ha : t.params = s.params) (hn : t.draws = s.draws) : t = s := by
  have hv' : t.v = s.v := by
    apply Vector.ext
    intro i hi
    exact hv ⟨i, hi⟩
  have hk' : t.keys = s.keys := by
    apply Vector.ext
    intro i hi
    exact hk ⟨i, hi⟩
  have hf' : t.fb = s.fb := by
    apply Vector.ext
    intro i hi
    apply Vector.ext
    intro j hj
    exact hf ⟨i, hi⟩ ⟨j, hj⟩
  cases s
  cases t
  simp_all

end Sys2Proof.Machine
end

