-- ==== Sys2Proof/Laws/Ops.lean ====
section
/-! SUPPORT. What each shared operation can do: the bounds check, block reads and writes, fetch, fetch-and-run, the
choices, and the meaning of a nested instruction. -/

namespace Sys2Proof.Machine

/-- The bounds check finds nothing when the span is empty or ends inside memory. -/
theorem State.spanFault_none {s : State} {n : Nat} (h : n = 0 ∨ s.index.toNat + n ≤ memSize) :
    s.spanFault n = none := by
  simp only [State.spanFault, State.span, List.find?_eq_none, List.mem_map, List.mem_range]
  rintro _ ⟨k, hk, rfl⟩
  simp only [decide_eq_true_eq]
  omega

/-- The bounds check finds the lowest address out of range. -/
theorem State.spanFault_some {s : State} {n : Nat} (hn : 0 < n) (h : memSize < s.index.toNat + n) :
    s.spanFault n = some (max s.index.toNat memSize) := by
  have hsplit : List.range n = List.range (memSize - s.index.toNat) ++
      (List.range (n - (memSize - s.index.toNat))).map (memSize - s.index.toNat + ·) := by
    rw [← List.range_add]
    congr 1
    omega
  obtain ⟨d, hd⟩ : ∃ d, n - (memSize - s.index.toNat) = d + 1 := ⟨n - (memSize - s.index.toNat) - 1, by omega⟩
  simp only [State.spanFault, State.span]
  rw [hsplit, List.map_append, List.find?_append]
  have hnone : ((List.range (memSize - s.index.toNat)).map (s.index.toNat + ·)).find? (fun a => memSize ≤ a) = none := by
    simp only [List.find?_eq_none, List.mem_map, List.mem_range]
    rintro _ ⟨k, hk, rfl⟩
    simp only [decide_eq_true_eq]
    omega
  rw [hnone, hd, List.range_succ_eq_map]
  simp only [List.map_cons, List.find?_cons, Option.none_or]
  rw [show (decide (memSize ≤ s.index.toNat + (memSize - s.index.toNat + 0))) = true by simp only [decide_eq_true_eq]; omega]
  simp only [Option.some.injEq]
  omega

/-- A block read inside memory. -/
theorem State.loadBytes_ok {s : State} {n : Nat} (h : n = 0 ∨ s.index.toNat + n ≤ memSize) :
    s.loadBytes n = .ok ((List.range n).map fun k => s.mem.read (s.index.toNat + k)) := by
  simp only [State.loadBytes, State.spanFault_none h, State.span, List.map_map]
  rfl

/-- A block read that leaves memory names the lowest address out of range. -/
theorem State.loadBytes_error {s : State} {n : Nat} (hn : 0 < n) (h : memSize < s.index.toNat + n) :
    s.loadBytes n = .error (max s.index.toNat memSize) := by
  simp only [State.loadBytes, State.spanFault_some hn h]

/-- A block read either gives its bytes or an address; it changes nothing. -/
theorem State.loadBytes_cases (s : State) (n : Nat) :
    (s.loadBytes n = .ok ((List.range n).map fun k => s.mem.read (s.index.toNat + k)) ∧
      (n = 0 ∨ s.index.toNat + n ≤ memSize)) ∨
    s.loadBytes n = .error (max s.index.toNat memSize) := by
  by_cases h : n = 0 ∨ s.index.toNat + n ≤ memSize
  · exact Or.inl ⟨State.loadBytes_ok h, h⟩
  · exact Or.inr (State.loadBytes_error (by omega) (by omega))

/-- A block write inside memory. -/
theorem State.storeBytes_ok {s : State} {bs : List Byte} (h : s.index.toNat + bs.length ≤ memSize) :
    s.storeBytes bs = .ok (s.setMem (s.mem.writeBytes s.index.toNat bs)) := by
  simp only [State.storeBytes, State.spanFault_none (Or.inr h)]

/-- A block write that leaves memory writes nothing and names the lowest address out of range. -/
theorem State.storeBytes_error {s : State} {bs : List Byte} (hn : bs ≠ []) (h : memSize < s.index.toNat + bs.length) :
    s.storeBytes bs = .error (max s.index.toNat memSize) := by
  simp only [State.storeBytes, State.spanFault_some (List.length_pos_of_ne_nil hn) h]

/-- Fetch (R79): a word exactly when both of its bytes are in memory, high byte first. -/
theorem State.fetch_eq_some {s : State} {w : Word} :
    s.fetch = some w ↔ s.pc.toNat + 1 < memSize ∧
      w = wordOfBytes (s.mem.read s.pc.toNat) (s.mem.read (s.pc.toNat + 1)) := by
  unfold State.fetch
  split <;> rename_i h
  · exact ⟨fun h' => (by cases h'), fun h' => absurd h'.1 (by omega)⟩
  · rw [Option.some.injEq]
    exact ⟨fun h' => ⟨by omega, h'.symm⟩, fun h' => h'.2.symm⟩

theorem State.fetch_eq_none {s : State} : s.fetch = none ↔ memSize ≤ s.pc.toNat + 1 := by
  unfold State.fetch
  split <;> simp_all

/-- Fetch reads nothing but memory and pc. -/
theorem State.fetch_congr {s t : State} (hm : t.mem = s.mem) (hp : t.pc = s.pc) : t.fetch = s.fetch := by
  simp only [State.fetch, hm, hp]

/-- Fetch in terms of the bytes a reader sees. -/
theorem State.fetch_of_byteAt {s : State} {hi lo : Byte} (h : s.byteAt s.pc.toNat = some hi)
    (h' : s.byteAt (s.pc.toNat + 1) = some lo) : s.fetch = some (wordOfBytes hi lo) := by
  simp only [State.byteAt] at h h'
  split at h <;> [skip; cases h]
  split at h' <;> [skip; cases h']
  rw [State.fetch_eq_some]
  simp_all

/-- Fetch-and-run (R78): the fault of a fetch, the fault of a decode, or the instruction. -/
theorem fetchExecute_ok {run : Instr → State → Result} {s : State} {w : Word} {i : Instr}
    (h : s.fetch = some w) (h' : decodeWord w = .ok i) : fetchExecute run s = run i s := by
  simp only [fetchExecute, h, h']

theorem fetchExecute_illegal {run : Instr → State → Result} {s : State} {w : Word}
    (h : s.fetch = some w) (h' : ∀ i, decodeWord w ≠ .ok i) :
    fetchExecute run s = s.raise .illegalInstruction (some w) w.toNat := by
  simp only [fetchExecute, h]
  split
  · rfl
  · rename_i i hi
    exact absurd hi (h' i)

theorem fetchExecute_unfetchable {run : Instr → State → Result} {s : State} (h : s.fetch = none) :
    fetchExecute run s = s.raise .fetchOutOfRange none s.pc.toNat := by
  simp only [fetchExecute, h]

/-- Everything fetch-and-run can do. -/
theorem fetchExecute_cases (run : Instr → State → Result) (s : State) :
    (s.fetch = none ∧ fetchExecute run s = s.raise .fetchOutOfRange none s.pc.toNat) ∨
    (∃ w, s.fetch = some w ∧ (∀ i, decodeWord w ≠ .ok i) ∧
      fetchExecute run s = s.raise .illegalInstruction (some w) w.toNat) ∨
    ∃ w i, s.fetch = some w ∧ decodeWord w = .ok i ∧ fetchExecute run s = run i s := by
  cases hf : s.fetch with
  | none => exact Or.inl ⟨rfl, fetchExecute_unfetchable hf⟩
  | some w =>
    cases hd : decodeWord w with
    | ok i => exact Or.inr (Or.inr ⟨w, i, rfl, hd, fetchExecute_ok hf hd⟩)
    | error e =>
      have hne : ∀ i, decodeWord w ≠ .ok i := by
        intro i hi
        rw [hi] at hd
        cases hd
      exact Or.inr (Or.inl ⟨w, rfl, hne, fetchExecute_illegal hf hne⟩)

/-- Step of a CORE without a fault. -/
theorem step_of_faultFree {s : State} (h : s.fault = none) : step s = fetchExecute exec s := by
  simp only [step, h]

/-- Outside CALL, a nested instruction has its top-level meaning (R105). -/
theorem execUnnested_eq_exec {i : Instr} (h : ∀ n, i ≠ .call n) (s : State) : execUnnested i s = exec i s := by
  cases i <;> first
    | rfl
    | exact absurd rfl (h _)

/-- A register value as an index. -/
theorem hexIndex_of_lt {b : Byte} (h : b.toNat < 16) : hexIndex b = some ⟨b.toNat, h⟩ := dif_pos h

theorem hexIndex_of_ge {b : Byte} (h : 16 ≤ b.toNat) : hexIndex b = none := dif_neg (by omega)

/-- The chosen key is one of those to choose from (R194). -/
theorem chooseKey_mem (k : Key) (ks : List Key) (n : Nat) : chooseKey k ks n ∈ k :: ks := List.getElem_mem _

/-- Every key can be chosen (R194, D7). -/
theorem exists_chooseKey {k : Key} {ks : List Key} {j : Key} (h : j ∈ k :: ks) : ∃ n, chooseKey k ks n = j := by
  obtain ⟨n, hn, rfl⟩ := List.getElem_of_mem h
  exact ⟨n, by simp only [chooseKey, Nat.mod_eq_of_lt hn]⟩

/-- The pressed keys (R194). -/
theorem State.mem_pressedKeys {s : State} {k : Key} : k ∈ s.pressedKeys ↔ s.key k = true := by
  simp [State.pressedKeys]

/-- A random byte is in RAND_RANGE (R131). -/
theorem randInRange_le (last raw : Byte) : (randInRange last raw).toNat ≤ last.toNat := by
  have h1 := last.isLt
  have h2 : raw.toNat % (last.toNat + 1) < last.toNat + 1 := Nat.mod_lt _ (by omega)
  simp only [randInRange, BitVec.toNat_ofNat]
  omega

/-- Every byte of RAND_RANGE can be drawn (R131). -/
theorem randInRange_self {last r : Byte} (h : r.toNat ≤ last.toNat) : randInRange last r = r := by
  apply BitVec.eq_of_toNat_eq
  have := r.isLt
  simp only [randInRange, BitVec.toNat_ofNat, Nat.mod_eq_of_lt (show r.toNat < last.toNat + 1 by omega)]
  omega

/-- Registers written in a row (R155): what each holds afterwards. -/
theorem State.setRegsFrom_reg (bs : List Byte) : ∀ (s : State) (k : Nat) (r : Reg), k + bs.length ≤ 16 →
    (s.setRegsFrom k bs).reg r =
      if h : k ≤ r.val ∧ r.val < k + bs.length then bs[r.val - k]'(by omega) else s.reg r := by
  induction bs with
  | nil =>
    intro s k r _
    simp only [State.setRegsFrom, List.length_nil]
    rw [dif_neg (by omega)]
  | cons b bs ih =>
    intro s k r hk
    simp only [List.length_cons] at hk
    rw [State.setRegsFrom, ih _ _ _ (by omega), State.setReg_reg]
    have hv : (Fin.ofNat 16 k : Reg).val = k := Nat.mod_eq_of_lt (by omega)
    by_cases hr : r.val = k
    · have hr' : r = Fin.ofNat 16 k := Fin.ext (by rw [hv, hr])
      rw [dif_neg (by omega), if_pos hr', dif_pos (by simp only [List.length_cons]; omega)]
      simp [hr]
    · have hr' : r ≠ Fin.ofNat 16 k := fun h => hr (by rw [h, hv])
      by_cases h1 : k + 1 ≤ r.val ∧ r.val < k + 1 + bs.length
      · rw [dif_pos h1, dif_pos (by simp only [List.length_cons]; omega)]
        have : r.val - k = (r.val - (k + 1)) + 1 := by omega
        simp [this]
      · rw [dif_neg h1, if_neg hr', dif_neg (by simp only [List.length_cons]; omega)]

/-- Registers written in a row change nothing but registers. -/
theorem State.setRegsFrom_rest (bs : List Byte) : ∀ (s : State) (k : Nat),
    s.setRegsFrom k bs = { s with v := (s.setRegsFrom k bs).v } := by
  induction bs with
  | nil => intros; rfl
  | cons b bs ih =>
    intro s k
    have h := ih (s.setReg (Fin.ofNat 16 k) b) (k + 1)
    simp only [State.setRegsFrom]
    rw [h]
    rfl

end Sys2Proof.Machine
end

