-- ==== Sys2Proof/Laws/Display.lean ====
section
/-! SUPPORT. The draw loops of rule R172, pixel by pixel. -/

namespace Sys2Proof.Machine

/-- A pixel after one pixel is toggled. -/
theorem Screen.toggle_get (f : Screen) (px qx : Fin 64) (py qy : Fin 32) :
    (f.toggle px py).get qx qy = if qx = px ∧ qy = py then !f.get qx qy else f.get qx qy := by
  simp only [Screen.toggle, Screen.get, Fin.getElem_fin, Vector.getElem_set, Fin.ext_iff]
  by_cases h1 : px.val = qx.val
  · have : qx.val = px.val := h1.symm
    by_cases h2 : py.val = qy.val
    · simp_all
    · simp_all [eq_comm]
  · simp [h1, Ne.symm h1]

/-- A pixel of a cleared screen. -/
theorem Screen.clear_get (px : Fin 64) (py : Fin 32) : Screen.clear.get px py = false := by
  simp [Screen.clear, Screen.get]

/-- One pixel toggled, and whether it was set (the body of rule R172's inner loop on a 1 bit). -/
def Drawing.touch (d : Drawing) (p : Fin 64 × Fin 32) : Drawing :=
  { fb := d.fb.toggle p.1 p.2, collided := d.collided || d.fb.get p.1 p.2 }

/-- The pixels the 1 bits of a row byte land on. -/
def rowPixels (xc yc r : Nat) (b : Byte) : List (Fin 64 × Fin 32) :=
  ((List.range 8).filter (spriteRowBit b)).map fun c => (wrapX xc c, wrapY yc r)

/-- The pixels the 1 bits of a sprite land on, from row r on. -/
def spritePixels (xc yc r : Nat) : List Byte → List (Fin 64 × Fin 32)
  | [] => []
  | b :: bs => rowPixels xc yc r b ++ spritePixels xc yc (r + 1) bs

theorem Drawing.foldl_plot (xc yc r : Nat) (b : Byte) (l : List Nat) : ∀ d : Drawing,
    l.foldl (fun e c => e.plot xc yc r b c) d =
      ((l.filter (spriteRowBit b)).map fun c => (wrapX xc c, wrapY yc r)).foldl Drawing.touch d := by
  induction l with
  | nil => intro d; rfl
  | cons c l ih =>
    intro d
    rw [List.foldl_cons, ih]
    by_cases h : spriteRowBit b c = true
    · rw [List.filter_cons_of_pos h, Drawing.plot, if_pos h]
      rfl
    · rw [List.filter_cons_of_neg h, Drawing.plot, if_neg h]

/-- The draw loops touch the sprite's pixels one after the other. -/
theorem Drawing.rows_eq_foldl (xc yc : Nat) (bs : List Byte) : ∀ (d : Drawing) (r : Nat),
    d.rows xc yc r bs = (spritePixels xc yc r bs).foldl Drawing.touch d := by
  induction bs with
  | nil => intros; rfl
  | cons b bs ih =>
    intro d r
    rw [Drawing.rows, ih, spritePixels, List.foldl_append, Drawing.row, Drawing.foldl_plot]
    rfl

/-- Touching distinct pixels inverts exactly those, and reports whether one of them was set. -/
theorem Drawing.foldl_touch (l : List (Fin 64 × Fin 32)) : ∀ d : Drawing, l.Nodup →
    (∀ px py, (l.foldl Drawing.touch d).fb.get px py = (d.fb.get px py ^^ decide ((px, py) ∈ l))) ∧
    ((l.foldl Drawing.touch d).collided = true ↔
      d.collided = true ∨ ∃ p ∈ l, d.fb.get p.1 p.2 = true) := by
  induction l with
  | nil => intro d _; simp
  | cons p l ih =>
    obtain ⟨qx, qy⟩ := p
    intro d hl
    rw [List.nodup_cons] at hl
    obtain ⟨h1, h2⟩ := ih (d.touch (qx, qy)) hl.2
    refine ⟨?_, ?_⟩
    · intro px py
      rw [List.foldl_cons, h1]
      simp only [Drawing.touch, Screen.toggle_get, List.mem_cons, Prod.mk.injEq]
      by_cases hp : px = qx ∧ py = qy
      · obtain ⟨rfl, rfl⟩ := hp
        simp [hl.1]
      · simp [hp]
    · rw [List.foldl_cons, h2]
      have hget : ∀ p ∈ l, (d.touch (qx, qy)).fb.get p.1 p.2 = d.fb.get p.1 p.2 := by
        rintro ⟨px, py⟩ hp
        simp only [Drawing.touch, Screen.toggle_get]
        rw [if_neg]
        rintro ⟨rfl, rfl⟩
        exact hl.1 hp
      constructor
      · rintro (h | ⟨p, hp, h⟩)
        · simp only [Drawing.touch, Bool.or_eq_true] at h
          rcases h with h | h
          · exact Or.inl h
          · exact Or.inr ⟨_, List.mem_cons_self, h⟩
        · exact Or.inr ⟨p, List.mem_cons_of_mem _ hp, by rw [← hget p hp, h]⟩
      · rintro (h | ⟨p, hp, h⟩)
        · exact Or.inl (by simp [Drawing.touch, h])
        · rcases List.mem_cons.1 hp with rfl | hp
          · exact Or.inl (by simp [Drawing.touch, h])
          · exact Or.inr ⟨p, hp, by rw [hget p hp, h]⟩

theorem mem_rowPixels {xc yc r : Nat} {b : Byte} {px : Fin 64} {py : Fin 32} :
    (px, py) ∈ rowPixels xc yc r b ↔
      py = wrapY yc r ∧ ∃ c, c < 8 ∧ spriteRowBit b c = true ∧ px = wrapX xc c := by
  simp only [rowPixels, List.mem_map, List.mem_filter, List.mem_range, Prod.mk.injEq]
  constructor
  · rintro ⟨c, ⟨hc, hb⟩, rfl, rfl⟩
    exact ⟨rfl, c, hc, hb, rfl⟩
  · rintro ⟨rfl, c, hc, hb, rfl⟩
    exact ⟨c, ⟨hc, hb⟩, rfl, rfl⟩

theorem mem_spritePixels {xc yc : Nat} {px : Fin 64} {py : Fin 32} (bs : List Byte) : ∀ r : Nat,
    (px, py) ∈ spritePixels xc yc r bs ↔
      ∃ k, ∃ h : k < bs.length, py = wrapY yc (r + k) ∧
        ∃ c, c < 8 ∧ spriteRowBit bs[k] c = true ∧ px = wrapX xc c := by
  induction bs with
  | nil => intro r; simp [spritePixels]
  | cons b bs ih =>
    intro r
    rw [spritePixels, List.mem_append, mem_rowPixels, ih]
    constructor
    · rintro (⟨hy, h⟩ | ⟨k, hk, hy, h⟩)
      · exact ⟨0, by simp, hy, h⟩
      · exact ⟨k + 1, by simpa using hk, by rw [hy]; congr 1; omega, by simpa using h⟩
    · rintro ⟨k, hk, hy, h⟩
      cases k with
      | zero => exact Or.inl ⟨hy, h⟩
      | succ k => exact Or.inr ⟨k, by simpa using hk, by rw [hy]; congr 1; omega, by simpa using h⟩

theorem wrapX_inj {xc c c' : Nat} (h : c < 8) (h' : c' < 8) (he : wrapX xc c = wrapX xc c') : c = c' := by
  have := congrArg Fin.val he
  simp only [wrapX, Fin.ofNat] at this
  omega

theorem wrapY_inj {yc r r' : Nat} (h : r < 32) (h' : r' < 32) (he : wrapY yc r = wrapY yc r') : r = r' := by
  have := congrArg Fin.val he
  simp only [wrapY, Fin.ofNat] at this
  omega

/-- No two bits of a sprite of at most 32 rows land on one pixel (R173). -/
theorem nodup_spritePixels (xc yc : Nat) (bs : List Byte) : ∀ r : Nat, r + bs.length ≤ 32 →
    (spritePixels xc yc r bs).Nodup := by
  induction bs with
  | nil => intro r _; exact List.nodup_nil
  | cons b bs ih =>
    intro r hr
    simp only [List.length_cons] at hr
    rw [spritePixels, List.nodup_append]
    refine ⟨?_, ih (r + 1) (by omega), ?_⟩
    · refine List.Nodup.map_on ?_ (List.nodup_range.filter _)
      intro c hc c' hc' he
      simp only [List.mem_filter, List.mem_range] at hc hc'
      exact wrapX_inj hc.1 hc'.1 (Prod.mk.inj he).1
    · rintro ⟨px, py⟩ hp ⟨qx, qy⟩ hq he
      obtain ⟨rfl, rfl⟩ := Prod.mk.inj he
      rw [mem_rowPixels] at hp
      rw [mem_spritePixels] at hq
      obtain ⟨k, hk, hy, _⟩ := hq
      have := wrapY_inj (by omega) (by omega) (hp.1.symm.trans hy)
      omega

/-- The pixels of a sprite drawn at reduced coordinates are those Safety's `spriteCovers` describes. -/
theorem mem_spritePixels_iff_covers (bs : List Byte) (a b : Nat) (px : Fin 64) (py : Fin 32) (h : bs.length ≤ 32) :
    (px, py) ∈ spritePixels (a % 64) (b % 32) 0 bs ↔ spriteCovers bs a b px py = true := by
  rw [mem_spritePixels]
  have hpx := px.isLt
  have hpy := py.isLt
  simp only [spriteCovers, Bool.and_eq_true, decide_eq_true_eq]
  constructor
  · rintro ⟨k, hk, hy, c, hc, hb, hx⟩
    have hx' := congrArg Fin.val hx
    have hy' := congrArg Fin.val hy
    simp only [wrapX, wrapY, Fin.ofNat] at hx' hy'
    have h1 : (px.val + (64 - a % 64)) % 64 = c := by omega
    have h2 : (py.val + (32 - b % 32)) % 32 = k := by omega
    rw [h1, h2, List.getElem?_eq_getElem hk]
    exact ⟨hc, hb⟩
  · rintro ⟨hc, hm⟩
    split at hm
    · rename_i v hv
      obtain ⟨hk, rfl⟩ := List.getElem?_eq_some_iff.1 hv
      refine ⟨_, hk, ?_, _, hc, hm, ?_⟩
      · apply Fin.ext
        simp only [wrapY, Fin.ofNat]
        omega
      · apply Fin.ext
        simp only [wrapX, Fin.ofNat]
        omega
    · cases hm

end Sys2Proof.Machine
end

