-- ==== Sys2Proof/Laws/HostOps.lean ====
section
/-! SUPPORT. What a host operation can do, said once, and what it does to DT along an endless run. -/

namespace Sys2Proof.Machine

/-- A host operation that answers is a Step, or a write on a CORE without a fault: a Load, a tick or a key set. -/
theorem Session.perform_cases {e e' : Session} {op : HostOp} (h : e.perform op = .next e') :
    (op = .step ∧ step e.core = .next e'.core) ∨
    (e.core.fault = none ∧
      ((∃ rom, op = .load rom ∧ e'.core = e.core.load rom) ∨
       (op = .tickDelay ∧ e'.core = e.core.tickDelay) ∨
       (op = .tickSound ∧ e'.core = e.core.tickSound) ∨
       ∃ (k : Key) (p : Bool), op = .keySet k.val p ∧ e'.core = e.core.setKey k p)) := by
  cases op with
  | step =>
    simp only [Session.perform, Session.afterStep] at h
    split at h <;> cases h
    exact .inl ⟨rfl, ‹_›⟩
  | load rom =>
    simp only [Session.perform, Session.guarded, Session.load] at h
    split at h
    · cases h
    · split at h <;> cases h
      exact .inr ⟨‹_›, .inl ⟨rom, rfl, rfl⟩⟩
  | tickDelay =>
    simp only [Session.perform, Session.guarded] at h
    split at h <;> cases h
    exact .inr ⟨‹_›, .inr (.inl ⟨rfl, rfl⟩)⟩
  | tickSound =>
    simp only [Session.perform, Session.guarded] at h
    split at h <;> cases h
    exact .inr ⟨‹_›, .inr (.inr (.inl ⟨rfl, rfl⟩))⟩
  | keySet i p =>
    simp only [Session.perform, Session.guarded, Session.keySet] at h
    split at h
    · cases h
    · split at h <;> cases h
      exact .inr ⟨‹_›, .inr (.inr (.inr ⟨⟨i, ‹_›⟩, p, rfl, rfl⟩))⟩

/-- DT after a tick. -/
theorem State.tickDelay_dt_toNat (s : State) : s.tickDelay.dt.toNat = s.dt.toNat - 1 := by
  unfold State.tickDelay
  split
  · simp [*]
  · simp only [State.setDt_dt]
    bv_omega

/-- In a run whose Steps leave DT alone, an operation other than TickDelay leaves it alone too. -/
theorem IsHostRun.dt_kept {sess : Nat → Session} {ops : Nat → HostOp} (hr : IsHostRun sess ops)
    (hs : StepsLeaveDt sess ops) {n : Nat} (hn : ops n ≠ .tickDelay) :
    (sess (n + 1)).core.dt = (sess n).core.dt := by
  rcases Session.perform_cases (hr n) with ⟨h, _⟩ | ⟨_, ⟨_, _, h⟩ | ⟨h, _⟩ | ⟨_, h⟩ | ⟨_, _, _, h⟩⟩
  · exact hs n h
  · rw [h]; rfl
  · exact absurd h hn
  · rw [h, State.tickSound]; split <;> rfl
  · rw [h]; rfl

/-- In a run, a TickDelay takes one off DT, floored at 0. -/
theorem IsHostRun.dt_ticked {sess : Nat → Session} {ops : Nat → HostOp} (hr : IsHostRun sess ops)
    {n : Nat} (hn : ops n = .tickDelay) : (sess (n + 1)).core.dt.toNat = (sess n).core.dt.toNat - 1 := by
  rcases Session.perform_cases (hr n) with ⟨h, _⟩ | ⟨_, ⟨_, h, _⟩ | ⟨_, h⟩ | ⟨h, _⟩ | ⟨_, _, h, _⟩⟩
  · rw [hn] at h; cases h
  · rw [hn] at h; cases h
  · rw [h, State.tickDelay_dt_toNat]
  · rw [hn] at h; cases h
  · rw [hn] at h; cases h

/-- In a run whose Steps leave DT alone, DT never rises. -/
theorem IsHostRun.dt_le {sess : Nat → Session} {ops : Nat → HostOp} (hr : IsHostRun sess ops)
    (hs : StepsLeaveDt sess ops) (n d : Nat) : (sess (n + d)).core.dt.toNat ≤ (sess n).core.dt.toNat := by
  induction d with
  | zero => exact Nat.le_refl _
  | succ d ih =>
    refine Nat.le_trans ?_ ih
    by_cases h : ops (n + d) = .tickDelay
    · rw [← Nat.add_assoc, hr.dt_ticked h]; omega
    · rw [← Nat.add_assoc, hr.dt_kept hs h]

end Sys2Proof.Machine
end

