-- ==== Sys2Proof/Laws/PerInstr.lean ====
section
/-! SUPPORT. The family SelectsItsRow: the word of a well-formed instruction selects the instruction's own row of the
decode table, (w AND mask) = match (R74). -/

namespace Sys2Proof.Laws.SelectsItsRow

/-- What is said of one instruction. -/
def Statement (i : Instr) : Prop := i.wellFormed = true → encode i &&& (opcodeRow i).mask = (opcodeRow i).pattern

theorem of_addr {op : Nat} (nnn p : Word) (h : op < 16) (hp : p.toNat = op * 4096) :
    encodeAddr op nnn &&& 0xF000#16 = p := by
  apply BitVec.eq_of_toNat_eq
  rw [and_F000_toNat, encodeAddr_toNat nnn h, hp]
  omega

theorem of_xkk {op : Nat} (x : Reg) (kk : Byte) (p : Word) (h : op < 16) (hp : p.toNat = op * 4096) :
    encodeXKk op x kk.toNat &&& 0xF000#16 = p := by
  apply BitVec.eq_of_toNat_eq
  rw [and_F000_toNat, encodeXKk_toNat x h kk.isLt, hp]
  omega

theorem of_x {op kk : Nat} (x : Reg) (p : Word) (h : op < 16) (hk : kk < 256) (hp : p.toNat = op * 4096 + kk) :
    encodeXKk op x kk &&& 0xF0FF#16 = p := by
  apply BitVec.eq_of_toNat_eq
  rw [and_F0FF_toNat, encodeXKk_toNat x h hk, hp]
  omega

theorem of_xy {op n : Nat} (x y : Reg) (p : Word) (h : op < 16) (hn : n < 16) (hp : p.toNat = op * 4096 + n) :
    encodeXYN op x y n &&& 0xF00F#16 = p := by
  apply BitVec.eq_of_toNat_eq
  rw [and_F00F_toNat, encodeXYN_toNat x y n h, hp]
  omega

theorem cls : Statement .cls := fun _ => rfl
theorem ret : Statement .ret := fun _ => rfl
theorem jp (nnn : Word) : Statement (.jp nnn) := fun _ => of_addr nnn _ (by decide) rfl
theorem call (nnn : Word) : Statement (.call nnn) := fun _ => of_addr nnn _ (by decide) rfl
theorem seVxKk (x : Reg) (kk : Byte) : Statement (.seVxKk x kk) := fun _ => of_xkk x kk _ (by decide) rfl
theorem sneVxKk (x : Reg) (kk : Byte) : Statement (.sneVxKk x kk) := fun _ => of_xkk x kk _ (by decide) rfl
theorem ldVxKk (x : Reg) (kk : Byte) : Statement (.ldVxKk x kk) := fun _ => of_xkk x kk _ (by decide) rfl
theorem addVxKk (x : Reg) (kk : Byte) : Statement (.addVxKk x kk) := fun _ => of_xkk x kk _ (by decide) rfl
theorem ldVxVy (x y : Reg) : Statement (.ldVxVy x y) := fun _ => of_xy x y _ (by decide) (by decide) rfl
theorem orVxVy (x y : Reg) : Statement (.orVxVy x y) := fun _ => of_xy x y _ (by decide) (by decide) rfl
theorem andVxVy (x y : Reg) : Statement (.andVxVy x y) := fun _ => of_xy x y _ (by decide) (by decide) rfl
theorem xorVxVy (x y : Reg) : Statement (.xorVxVy x y) := fun _ => of_xy x y _ (by decide) (by decide) rfl
theorem addVxVy (x y : Reg) : Statement (.addVxVy x y) := fun _ => of_xy x y _ (by decide) (by decide) rfl
theorem subVxVy (x y : Reg) : Statement (.subVxVy x y) := fun _ => of_xy x y _ (by decide) (by decide) rfl
theorem shrVxVy (x y : Reg) : Statement (.shrVxVy x y) := fun _ => of_xy x y _ (by decide) (by decide) rfl
theorem ldI (nnn : Word) : Statement (.ldI nnn) := fun _ => of_addr nnn _ (by decide) rfl
theorem rnd (x : Reg) (kk : Byte) : Statement (.rnd x kk) := fun _ => of_xkk x kk _ (by decide) rfl
theorem drw (x y : Reg) (n : Nat) : Statement (.drw x y n) := by
  intro _
  apply BitVec.eq_of_toNat_eq
  show (encodeXYN 0xD x y n &&& 0xF000#16).toNat = 0xD000
  rw [and_F000_toNat, encodeXYN_toNat x y n (by decide)]
  omega
theorem skp (x : Reg) : Statement (.skp x) := fun _ => of_x x _ (by decide) (by decide) rfl
theorem sknp (x : Reg) : Statement (.sknp x) := fun _ => of_x x _ (by decide) (by decide) rfl
theorem ldVxDt (x : Reg) : Statement (.ldVxDt x) := fun _ => of_x x _ (by decide) (by decide) rfl
theorem ldVxK (x : Reg) : Statement (.ldVxK x) := fun _ => of_x x _ (by decide) (by decide) rfl
theorem ldDtVx (x : Reg) : Statement (.ldDtVx x) := fun _ => of_x x _ (by decide) (by decide) rfl
theorem ldStVx (x : Reg) : Statement (.ldStVx x) := fun _ => of_x x _ (by decide) (by decide) rfl
theorem addIVx (x : Reg) : Statement (.addIVx x) := fun _ => of_x x _ (by decide) (by decide) rfl
theorem ldFVx (x : Reg) : Statement (.ldFVx x) := fun _ => of_x x _ (by decide) (by decide) rfl
theorem ldBVx (x : Reg) : Statement (.ldBVx x) := fun _ => of_x x _ (by decide) (by decide) rfl
theorem ldVxMem (x : Reg) : Statement (.ldVxMem x) := fun _ => of_x x _ (by decide) (by decide) rfl

end Sys2Proof.Laws.SelectsItsRow
end

