-- ==== Sys2Proof/Tests/Slice0.lean ====
section
/-! SUPPORT. Tests: well-formedness, decoding of words written out from 30_encoding.md R74, the vectors of
95_test_vectors.md (each names its row), and a witness for every obligation that has hypotheses. -/

namespace Sys2Proof.Tests
open Sys2Proof Sys2Proof.Machine

/-! ### Helpers -/

/-- Reset, with some registers set. -/
def withRegs (l : List (Reg × Byte)) : State := l.foldl (fun s p => s.setReg p.1 p.2) State.reset

/-- The state with bytes stored from an address on. -/
def withBytes (s : State) (a : Nat) (bs : List Byte) : State := s.setMem (s.mem.writeBytes a bs)

/-- The state with another FLAG_ALIAS_MODE. -/
def withAlias (s : State) (m : FlagAliasMode) : State := { s with params := { s.params with flagAliasMode := m } }

/-- One step with the word at pc: it answers a next state of which `p` holds. -/
def stepOn (s : State) (w : Nat) (p : State → Bool) : Bool :=
  match step (s.withFetchWord 16 w) with
  | .next t => p t
  | .fault _ => false
  | .refused _ => false

/-- A fault record as 95_test_vectors.md writes it: {code, pc, w, info}. -/
def rec (c : FaultCode) (pc : Word) (w : Option Word) (info : Nat) : Option FaultRecord :=
  some { code := c, pc := pc, w := w, info := info }

/-- The pixels of the first list are set and those of the second are not. -/
def shows (s : State) (on off : List (Fin 64 × Fin 32)) : Bool :=
  on.all (fun p => s.pixel p.1 p.2) && off.all (fun p => !s.pixel p.1 p.2)

/-- An outcome is a next state of which `p` holds. -/
def nextIs (o : Result) (p : State → Bool) : Bool :=
  match o with
  | .next t => p t
  | .fault _ => false
  | .refused _ => false

/-- The decoder refuses the word and names it. -/
def refusesByName (w : Word) : Bool :=
  match decodeWord w with
  | .error (.illegalWord v) => v == w
  | .error .tooShort => false
  | .ok _ => false

/-! ### Well-formedness: an ill-formed term for each check, and the largest operand that passes -/

theorem test_wellFormed_refuses_jp_of_13_bits : (Instr.jp 0x1000).wellFormed = false := by decide
theorem test_wellFormed_refuses_call_of_16_bits : (Instr.call 0xFFFF).wellFormed = false := by decide
theorem test_wellFormed_refuses_ldI_of_13_bits : (Instr.ldI 0x1000).wellFormed = false := by decide
theorem test_wellFormed_refuses_drw_of_16_rows : (Instr.drw 0 0 16).wellFormed = false := by decide
theorem test_wellFormed_admits_the_largest_operands :
    (Instr.jp 0xFFF).wellFormed = true ∧ (Instr.call 0xFFF).wellFormed = true ∧
    (Instr.ldI 0xFFF).wellFormed = true ∧ (Instr.drw 15 15 15).wellFormed = true := by decide

/-! ### Decoding: one word of every row, bit by bit from the match column and the fields of R71 -/

theorem test_decode_system :
    decodeWord 0b0000000011100000 = .ok .cls ∧ decodeWord 0b0000000011101110 = .ok .ret := by decide
theorem test_decode_jumps :
    decodeWord 0b0001001000110100 = .ok (.jp 0x234) ∧ decodeWord 0b0010111111111011 = .ok (.call 0xFFB) := by decide
theorem test_decode_skips :
    decodeWord 0b0011001101000010 = .ok (.seVxKk 3 0x42) ∧
    decodeWord 0b0100111100000001 = .ok (.sneVxKk 15 0x01) := by decide
theorem test_decode_immediates :
    decodeWord 0b0110101000101010 = .ok (.ldVxKk 10 0x2A) ∧
    decodeWord 0b0111000111111110 = .ok (.addVxKk 1 0xFE) ∧
    decodeWord 0b1100001100001111 = .ok (.rnd 3 0x0F) := by decide
theorem test_decode_register_moves_and_logic :
    decodeWord 0b1000000100100000 = .ok (.ldVxVy 1 2) ∧ decodeWord 0b1000001100010001 = .ok (.orVxVy 3 1) ∧
    decodeWord 0b1000010110100010 = .ok (.andVxVy 5 10) ∧ decodeWord 0b1000111100000011 = .ok (.xorVxVy 15 0) := by
  decide
theorem test_decode_register_arithmetic :
    decodeWord 0b1000000100100100 = .ok (.addVxVy 1 2) ∧ decodeWord 0b1000111100010101 = .ok (.subVxVy 15 1) ∧
    decodeWord 0b1000000000110110 = .ok (.shrVxVy 0 3) := by decide
theorem test_decode_index_and_memory :
    decodeWord 0b1010001100000000 = .ok (.ldI 0x300) ∧ decodeWord 0b1111001000011110 = .ok (.addIVx 2) ∧
    decodeWord 0b1111000100101001 = .ok (.ldFVx 1) ∧ decodeWord 0b1111100000110011 = .ok (.ldBVx 8) ∧
    decodeWord 0b1111111101100101 = .ok (.ldVxMem 15) := by decide
theorem test_decode_draw : decodeWord 0b1101110001011010 = .ok (.drw 12 5 10) := by decide
theorem test_decode_keys :
    decodeWord 0b1110010110011110 = .ok (.skp 5) ∧ decodeWord 0b1110101010100001 = .ok (.sknp 10) ∧
    decodeWord 0b1111100100001010 = .ok (.ldVxK 9) := by decide
theorem test_decode_timers :
    decodeWord 0b1111001100000111 = .ok (.ldVxDt 3) ∧ decodeWord 0b1111010000010101 = .ok (.ldDtVx 4) ∧
    decodeWord 0b1111011000011000 = .ok (.ldStVx 6) := by decide

/-- The words of TE5, TE6 and the leading nibbles 5, 9 and B are illegal, by name. -/
theorem test_decode_refuses_illegal_words :
    [0x0000, 0x00E1, 0x00FF, 0x0123, 0x5010, 0x9010, 0xB123].all refusesByName = true ∧
    [0x8007, 0x800E, 0xE09F, 0xE0A2, 0xF055, 0xF000].all refusesByName = true := by decide

/-- Bytes are taken high byte first (R55), one instruction is two of them, and fewer hold none (R73). -/
theorem test_decode_takes_two_bytes :
    decode [0x12, 0x34, 0xAB] = .ok (.jp 0x234, [0xAB]) ∧ decode [0x12] = .error .tooShort ∧
    decode [] = .error .tooShort := by decide

/-- The table's numbering: its bit 0 is the word's bit 0 (00E0 and Fx65 with x = 3). -/
theorem test_decodeTableWord :
    decodeTableWord 16 0x00E0 = some .cls ∧ decodeTableWord 16 0xF365 = some (.ldVxMem 3) ∧
    decodeTableWord 16 0x5010 = none := by decide

/-- The table of R74 has 28 rows, and any two differ in a bit that both masks keep (R75). -/
theorem test_opcodeTable_rows_are_disjoint :
    opcodeTable.length = 28 ∧
    opcodeTable.Pairwise (fun a b => (a.pattern ^^^ b.pattern) &&& (a.mask &&& b.mask) ≠ 0) := by decide

/-! ### Fetch (section 2 of the vectors) -/

/-- TE3. -/
theorem test_TE3_fetch_out_of_range :
    nextIs (step (State.reset.setPc 0xFFB)) (fun t => t.fault == rec .fetchOutOfRange 0xFFB none 0xFFB) = true := by
  decide
/-- TE2: the last address that can be fetched from. -/
theorem test_TE2_fetch_at_the_end :
    nextIs (step (State.reset.setPc 0xFFA)) (fun t => t.fault == rec .illegalInstruction 0xFFA (some 0) 0) = true := by
  decide
/-- TE4: an odd pc. -/
theorem test_TE4_odd_pc :
    stepOn (State.reset.setPc 0x201) 0x6007 (fun t => t.reg 0 == 7 && t.pc == 0x203) = true := by decide
/-- TE8: the second Step fetches what the first one stored. -/
theorem test_TE8_stored_bytes_are_fetched :
    stepOn (withBytes (State.reset.setIndex 0x202) 0x202 [0x60, 0x05]) 0xF033
      (fun t => t.pc == 0x202 && nextIs (step t) (fun u => u.fault == rec .illegalInstruction 0x202 (some 0) 0)) =
    true := by decide

/-! ### Control (section 3) -/

/-- TC1. -/
theorem test_TC1_ret :
    stepOn ((State.reset.setPc 0x20C).push 0x200) 0x00EE (fun t => t.pc == 0x202 && t.stack == []) = true := by decide
/-- TC2. -/
theorem test_TC2_ret_on_an_empty_stack :
    stepOn (State.reset.setPc 0x20C) 0x00EE
      (fun t => t.fault == rec .stackUnderflow 0x20C (some 0x00EE) 0x00EE && t.pc == 0x20C) = true := by decide
/-- TC4. -/
theorem test_TC4_jp : stepOn State.reset 0x1234 (fun t => t.pc == 0x234) = true := by decide
/-- TC5: the self-jump is a stopped program (R226). -/
theorem test_TC5_self_jump : (State.reset.withFetchWord 16 0x1200).Stopped := by decide
/-- TC7: the nested instruction runs in the same Step. -/
theorem test_TC7_call_runs_its_target :
    stepOn (withBytes State.reset 0x208 [0x60, 0xF0]) 0x2208
      (fun t => t.stack == [0x200] && t.reg 0 == 0xF0 && t.pc == 0x20A) = true := by decide
/-- TC9 and TC10: a nested call does not run its own target, but under nested_recursive it does. -/
theorem test_TC9_TC10_nested_calls :
    let s := withBytes (withBytes State.reset 0x300 [0x24, 0x00]) 0x400 [0x60, 0x01]
    stepOn s 0x2300 (fun t => t.stack == [0x200, 0x300] && t.pc == 0x400 && t.reg 0 == 0) = true ∧
    stepOn (s.withCallMode .nestedRecursive) 0x2300
      (fun t => t.stack == [0x200, 0x300] && t.pc == 0x402 && t.reg 0 == 1) = true := by decide
/-- TC18 and TC17. -/
theorem test_TC17_TC18_se :
    stepOn ((withRegs [(3, 0x42)]).setPc 0x204) 0x3342 (fun t => t.pc == 0x208) = true ∧
    stepOn ((withRegs [(3, 0x41)]).setPc 0x204) 0x3342 (fun t => t.pc == 0x206) = true := by decide
/-- TC19 and TC20. -/
theorem test_TC19_TC20_sne :
    stepOn ((withRegs [(0, 0)]).setPc 0x206) 0x4000 (fun t => t.pc == 0x208) = true ∧
    stepOn ((withRegs [(0, 1)]).setPc 0x206) 0x4000 (fun t => t.pc == 0x20A) = true := by decide

/-! ### ALU (section 4) -/

/-- TA1 and TA2. -/
theorem test_TA1_TA2_ld_immediate :
    stepOn State.reset 0x6A2A (fun t => t.reg 10 == 0x2A) = true ∧
    stepOn (withRegs [(15, 1)]) 0x6F07 (fun t => t.reg 15 == 7) = true := by decide
/-- TA3: no carry is written. -/
theorem test_TA3_add_immediate_wraps :
    stepOn (withRegs [(0, 0xFF), (15, 0x55)]) 0x7001 (fun t => t.reg 0 == 0 && t.reg 15 == 0x55) = true := by decide
/-- TA6. -/
theorem test_TA6_ld_register : stepOn (withRegs [(1, 0x33)]) 0x8010 (fun t => t.reg 0 == 0x33) = true := by decide
/-- TA7: VF is not cleared. -/
theorem test_TA7_or :
    stepOn (withRegs [(0, 0xF0), (1, 0x0F), (15, 7)]) 0x8011 (fun t => t.reg 0 == 0xFF && t.reg 15 == 7) = true := by
  decide
/-- TA8. -/
theorem test_TA8_and :
    stepOn (withRegs [(0, 0xF0), (1, 0x3C)]) 0x8012 (fun t => t.reg 0 == 0x30) = true := by decide
/-- TA9. -/
theorem test_TA9_xor :
    stepOn (withRegs [(0, 0xF0), (1, 0x3C)]) 0x8013 (fun t => t.reg 0 == 0xCC) = true := by decide
/-- TA13 and TA14: the sums 255 and 256. -/
theorem test_TA13_TA14_add_carry :
    stepOn (withRegs [(0, 0x80), (1, 0x7F)]) 0x8014 (fun t => t.reg 0 == 0xFF && t.reg 15 == 0) = true ∧
    stepOn (withRegs [(0, 0x80), (1, 0x80)]) 0x8014 (fun t => t.reg 0 == 0 && t.reg 15 == 1) = true := by decide
/-- TA17 and TA18: VF as an operand. -/
theorem test_TA17_TA18_add_with_vf :
    stepOn (withRegs [(15, 5), (1, 3)]) 0x8F14 (fun t => t.reg 15 == 0) = true ∧
    stepOn (withRegs [(0, 0x10), (15, 0xF5)]) 0x80F4 (fun t => t.reg 0 == 5 && t.reg 15 == 1) = true := by decide
/-- TA20 and TA21: borrow, and equal operands. -/
theorem test_TA20_TA21_sub_borrow :
    stepOn (withRegs [(0, 3), (1, 5)]) 0x8015 (fun t => t.reg 0 == 0xFE && t.reg 15 == 0) = true ∧
    stepOn (withRegs [(0, 5), (1, 5)]) 0x8015 (fun t => t.reg 0 == 0 && t.reg 15 == 1) = true := by decide
/-- TA24, TA25 and TA27: VF as an operand. -/
theorem test_TA24_TA25_TA27_sub_with_vf :
    stepOn (withRegs [(15, 0x10), (1, 3)]) 0x8F15 (fun t => t.reg 15 == 0xFE) = true ∧
    stepOn (withRegs [(0, 0x10), (15, 0x20)]) 0x80F5 (fun t => t.reg 0 == 0x10 && t.reg 15 == 0) = true ∧
    stepOn (withAlias (withRegs [(15, 0x10), (1, 3)]) .refuse) 0x8F15
      (fun t => t.fault == rec .flagAliasRefused 0x200 (some 0x8F15) 0x8F15 && t.reg 15 == 0x10) = true := by decide
/-- TA28 and TA29: y is ignored. -/
theorem test_TA28_TA29_shr :
    stepOn (withRegs [(0, 5)]) 0x8006 (fun t => t.reg 0 == 2 && t.reg 15 == 1) = true ∧
    stepOn (withRegs [(0, 0x80), (3, 7)]) 0x8036 (fun t => t.reg 0 == 0x40 && t.reg 15 == 0) = true := by decide
/-- TA31, TA32 and TA33: VF as an operand. -/
theorem test_TA31_TA32_TA33_shr_with_vf :
    stepOn (withRegs [(15, 3)]) 0x8F06 (fun t => t.reg 15 == 0) = true ∧
    stepOn (withAlias (withRegs [(15, 3)]) .refuse) 0x8F06
      (fun t => t.fault == rec .flagAliasRefused 0x200 (some 0x8F06) 0x8F06) = true ∧
    stepOn (withAlias (withRegs [(0, 4), (15, 9)]) .refuse) 0x80F6 (fun t => t.reg 0 == 2 && t.reg 15 == 0) = true := by
  decide
/-- TA34: the draw AB masked by 0F, and its range with RAND_RANGE = {0..254} (TA36). -/
theorem test_TA34_TA36_random_range :
    randInRange 255 0xAB &&& 0x0F = 0x0B ∧ randInRange 255 0xFF = 0xFF ∧ randInRange 254 0xFF = 0 ∧
    randInRange 254 0xFE = 0xFE := by decide
/-- TA35: kk = 0 gives 0 for every draw. -/
theorem test_TA35_rnd_masked_by_zero (s : State) :
    ∃ t, exec (.rnd 0 0) s = .next t ∧ t.reg 0 = 0 ∧ t.pc = s.pc + 2 :=
  ⟨_, rfl, by simp, rfl⟩

/-! ### Index register and memory (section 5) -/

/-- TM1 and TM2. -/
theorem test_TM1_TM2_ld_i :
    stepOn State.reset 0xA300 (fun t => t.index == 0x300) = true ∧
    stepOn State.reset 0xAFFF (fun t => t.index == 0xFFF && t.fault == none) = true := by decide
/-- TM3 and TM4: no 12-bit wrap, and the 16-bit one, without a flag. -/
theorem test_TM3_TM4_add_i :
    stepOn ((withRegs [(2, 0x10)]).setIndex 0xFFF) 0xF21E (fun t => t.index == 0x100F) = true ∧
    stepOn ((withRegs [(0, 1)]).setIndex 0xFFFF) 0xF01E (fun t => t.index == 0 && t.reg 15 == 0) = true := by decide
/-- TM6 and TM7: the last glyph, and the first value that is no digit. -/
theorem test_TM6_TM7_ld_f :
    stepOn (withRegs [(0, 0x0F)]) 0xF029 (fun t => t.index == 0x4B) = true ∧
    stepOn ((withRegs [(0, 0x10)]).setIndex 0x300) 0xF029
      (fun t => t.fault == rec .glyphDigitOutOfRange 0x200 (some 0xF029) 0x10 && t.index == 0x300) = true := by decide
/-- S6 and TM9: 156 and 255. -/
theorem test_S6_TM9_ld_b :
    stepOn ((withRegs [(0, 0x9C)]).setIndex 0x300) 0xF033
      (fun t => (List.range 4).map (fun k => t.byteAt (0x300 + k)) == [some 1, some 5, some 6, some 0]) = true ∧
    stepOn ((withRegs [(0, 0xFF)]).setIndex 0x300) 0xF033
      (fun t => (List.range 3).map (fun k => t.byteAt (0x300 + k)) == [some 2, some 5, some 5]) = true := by decide
/-- TM12 and TM13: the last addresses, and one past them with nothing written. -/
theorem test_TM12_TM13_ld_b_at_the_end :
    stepOn ((withRegs [(0, 0x9C)]).setIndex 0xFF9) 0xF033 (fun t => t.byteAt 0xFFB == some 6) = true ∧
    stepOn ((withRegs [(0, 0x9C)]).setIndex 0xFFA) 0xF033
      (fun t => t.fault == rec .memoryOutOfRange 0x200 (some 0xF033) 0xFFC && t.byteAt 0xFFA == some 0) = true := by
  decide
/-- TM14 and TM17: three registers and no fourth, and glyph 0. -/
theorem test_TM14_TM17_ld_registers :
    stepOn (withBytes ((withRegs [(3, 0xAA)]).setIndex 0x300) 0x300 [1, 5, 6, 7]) 0xF265
      (fun t => (t.reg 0 == 1 && t.reg 1 == 5 && t.reg 2 == 6 && t.reg 3 == 0xAA && t.index == 0x300)) = true ∧
    stepOn State.reset 0xF465
      (fun t => t.reg 0 == 0xF0 && t.reg 1 == 0x90 && t.reg 2 == 0x90 && t.reg 3 == 0x90 && t.reg 4 == 0xF0) = true := by
  decide
/-- TM18. -/
theorem test_TM18_ld_registers_out_of_range :
    stepOn ((withRegs [(0, 0x11)]).setIndex 0xFFB) 0xF165
      (fun t => t.fault == rec .memoryOutOfRange 0x200 (some 0xF165) 0xFFC && t.reg 0 == 0x11) = true := by decide

/-! ### Display (section 6) -/

/-- TD1: VF stays. -/
theorem test_TD1_cls :
    stepOn ((withRegs [(15, 1)]).setFb (State.reset.fb.toggle 7 9)) 0x00E0
      (fun t => shows t [] [(7, 9)] && t.reg 15 == 1) = true := by decide
/-- TD3: glyph 1 with wraparound. -/
theorem test_TD3_draw_wraps :
    stepOn ((withRegs [(0, 0x3E)]).setIndex 5) 0xD015
      (fun t => shows t [(0, 0), (63, 1), (0, 1), (0, 2), (0, 3), (63, 4), (0, 4), (1, 4)] [(62, 0), (1, 1), (0, 5)] &&
        t.reg 15 == 0) = true := by decide
/-- TD5 and TD6: a collision, and a zero bit over a set pixel. -/
theorem test_TD5_TD6_draw_collision :
    let s := (State.reset.setFb (State.reset.fb.toggle 0 0)).setIndex 0x300
    stepOn (withBytes s 0x300 [0x80]) 0xD011 (fun t => shows t [] [(0, 0), (1, 0)] && t.reg 15 == 1) = true ∧
    stepOn (withBytes s 0x300 [0x40]) 0xD011 (fun t => shows t [(0, 0), (1, 0)] [(2, 0)] && t.reg 15 == 0) = true := by
  decide

/-! ### Keypad and timers (section 7) -/

/-- TK1 and TK5. -/
theorem test_TK1_TK5_skp :
    stepOn (((withRegs [(5, 0x0A)]).setKey 10 true).setPc 0x210) 0xE59E (fun t => t.pc == 0x214) = true ∧
    stepOn (withRegs [(5, 0x10)]) 0xE59E
      (fun t => t.fault == rec .keyIndexOutOfRange 0x200 (some 0xE59E) 0x10) = true := by decide
/-- TK3 and TK4. -/
theorem test_TK3_TK4_sknp :
    stepOn (((withRegs [(5, 0x0A)]).setKey 10 true).setPc 0x210) 0xE5A1 (fun t => t.pc == 0x212) = true ∧
    stepOn ((withRegs [(5, 0x0A)]).setPc 0x210) 0xE5A1 (fun t => t.pc == 0x214) = true := by decide
/-- TK7. -/
theorem test_TK7_ld_dt : stepOn (State.reset.setDt 0x3C) 0xF307 (fun t => t.reg 3 == 0x3C) = true := by decide
/-- TK8. -/
theorem test_TK8_key_wait : stepOn State.reset 0xF00A (fun t => t.pc == 0x200 && t.fault == none) = true := by decide
/-- TK10, with TK9 in the choice between two keys. -/
theorem test_TK9_TK10_key_choice (n : Nat) :
    (State.reset.setKey 9 true).pressedKeys = [9] ∧ chooseKey 9 [] n = 9 ∧ chooseKey 2 [9] 0 = 2 ∧
    chooseKey 2 [9] 1 = 9 :=
  ⟨by decide, by simp [chooseKey], by decide, by decide⟩
/-- TK11. -/
theorem test_TK11_set_dt : stepOn (withRegs [(0, 7)]) 0xF015 (fun t => t.dt == 7) = true := by decide
/-- TK12 and TK13. -/
theorem test_TK12_TK13_set_st :
    stepOn (State.reset.setSt 5) 0xF018 (fun t => t.st == 0 && !t.soundActive) = true ∧
    stepOn (withRegs [(0, 1)]) 0xF018
      (fun t => t.st == 1 && t.soundActive && t.tickSound.st == 0 && !t.tickSound.soundActive) = true := by decide
/-- TK14, TK15 and TK16. -/
theorem test_TK14_TK15_TK16_ticks :
    State.reset.tickDelay.dt = 0 ∧ (State.reset.setDt 0xFF).tickDelay.dt = 0xFE ∧
    ((State.reset.setDt 5).setSt 2).tickSound = (State.reset.setDt 5).setSt 1 := by decide
/-- TK17. -/
theorem test_TK17_key_index_16 : Session.start.perform (.keySet 16 true) = .refused (.keyIndexNotAKey 16) := rfl

/-! ### Reset, Load and faults (section 8) -/

/-- TR1 and S10: the font, the bytes around its end, and the end of memory. -/
theorem test_TR1_initial_memory :
    State.reset.byteAt 0 = some 0xF0 ∧ State.reset.byteAt 0x4F = some 0x80 ∧ State.reset.byteAt 0x50 = some 0 ∧
    State.reset.byteAt 0xFFB = some 0 ∧ State.reset.byteAt 0xFFC = none := by decide
/-- TR2 and TR3: an empty image, and the self-jump. -/
theorem test_TR2_TR3_load_then_step :
    nextIs (step (State.reset.load [])) (fun t => t.fault == rec .illegalInstruction 0x200 (some 0) 0) = true ∧
    nextIs (step (State.reset.load [0x12, 0x00])) (fun t => t.pc == 0x200 && t.fault == none) = true := by decide
/-- The codes of the table of R210, in its order, and the defaults of the table of R5. -/
theorem test_R210_codes_and_R5_defaults :
    [FaultCode.fetchOutOfRange, .illegalInstruction, .stackUnderflow, .memoryOutOfRange, .keyIndexOutOfRange,
      .glyphDigitOutOfRange, .flagAliasRefused].map FaultCode.number = [1, 2, 3, 4, 5, 6, 7] ∧
    State.reset.params.callMode = .nestedOneLevel ∧ State.reset.params.flagAliasMode = .sequential ∧
    State.reset.params.randLast = 255 := by decide
/-- TR4. -/
theorem test_TR4_load_after_step :
    (Session.perform { core := State.reset, phase := .running } (.load [0x12])) = .refused .loadNotAtLaunch := rfl
/-- TR5 and TR7: a faulted CORE has no Step and no tick. -/
theorem test_TR5_no_move_after_a_fault :
    let s := State.reset.withFault .glyphDigitOutOfRange 0x200 (some 0xF029) 0x10
    let r : FaultRecord := ⟨.glyphDigitOutOfRange, 0x200, some 0xF029, 0x10⟩
    step s = .fault (.halted r) ∧
    (Session.perform { core := s, phase := .running } .tickDelay) = .refused (.coreFaulted r) := ⟨rfl, rfl⟩

/-! ### Witnesses: for every obligation with hypotheses, states and operands that meet them, at the edges of each
clause -/

theorem test_witness_InitializeInstallsFontAndDefaultsGiveReset : font.length = 80 := by decide
theorem test_witness_LoadCopiesTheRomAndTruncates :
    State.reset.mem.wf = true ∧ 3579 < (List.replicate 3581 (0x12 : Byte)).length ∧ (3579 : Nat) < 3580 ∧
    0x200 + min (List.replicate 3581 (0x12 : Byte)).length 3580 ≤ 4092 ∧ (0x1FF : Nat) < 0x200 := by
  rw [List.length_replicate]; decide
/-- A self-jump at 200 with DT = 1: Step, TickDelay, then Steps for ever. -/
def pollSession (n : Nat) : Session :=
  { core := (withBytes State.reset 0x200 [0x12, 0x00]).setDt (if n < 2 then 1 else 0), phase := .running }
/-- The operations of that run. -/
def pollOps (n : Nat) : HostOp := if n = 1 then .tickDelay else .step
/-- Every hypothesis about endless runs in TicksDecrementTheirOwnTimer, in a run where DT is not 0 at first. -/
theorem test_witness_TicksDecrementTheirOwnTimer_fair_run :
    IsHostRun pollSession pollOps ∧ StepsLeaveDt pollSession pollOps ∧ KeepsStepping pollOps ∧
    FairDelayTicks pollSession pollOps ∧ (pollSession 0).core.dt = 1 := by
  refine ⟨fun n => ?_, fun n h => ?_, fun n => ⟨n + 2, by omega, by simp [pollOps]⟩, fun n _ h => ?_, rfl⟩
  · rcases n with _ | _ | n
    · rfl
    · rfl
    · simp only [pollSession, pollOps, if_neg (show ¬ n + 2 < 2 by omega), if_neg (show ¬ n + 2 + 1 < 2 by omega),
        if_neg (show n + 2 ≠ 1 by omega)]
      rfl
  · rcases n with _ | _ | n
    · rfl
    · cases h
    · rfl
  · rcases n with _ | n
    · exact ⟨1, by decide, .inl rfl⟩
    · exact ⟨n + 2, by omega, .inr rfl⟩
/-- The run of Steps alone: no TickDelay, and no Step changes DT. -/
theorem test_witness_TicksDecrementTheirOwnTimer_unticked_run :
    IsHostRun (fun _ => pollSession 0) (fun _ => .step) ∧ StepsLeaveDt (fun _ => pollSession 0) (fun _ => .step) ∧
    (∀ n : Nat, (fun _ => HostOp.step) n ≠ .tickDelay) := by
  have h : (pollSession 0).perform .step = .next (pollSession 0) := by rfl
  exact ⟨fun _ => h, fun _ _ => rfl, fun _ h => by cases h⟩
theorem test_witness_KeySetWritesOneKey :
    Session.start.core.fault = none ∧ (15 : Nat) < 16 ∧ ((15 : Key).val ≠ 14) ∧ (16 : Nat) ≤ 16 := by decide
theorem test_witness_LoadOnlyAtLaunchAndNoMoveAfterAFault :
    (Session.start.core.fault = none ∧ Session.start.phase = .initialized) ∧ Phase.loaded ≠ .initialized ∧
    (∃ e', Session.start.perform .step = .next e') ∧
    (State.reset.withFault .stackUnderflow 0x200 (some 0x00EE) 0x00EE).fault =
      rec .stackUnderflow 0x200 (some 0x00EE) 0x00EE := ⟨⟨rfl, rfl⟩, by decide, ⟨_, rfl⟩, rfl⟩
theorem test_witness_DecodeOfEncodeIsTheInstruction :
    (Instr.jp 0xFFF).wellFormed = true ∧ (Instr.drw 15 15 15).wellFormed = true ∧
    (Instr.ldVxKk 15 0xFF).wellFormed = true := by decide
theorem test_witness_EncodeOfDecodeIsTheWord : decodeWord 0xDFFF = .ok (.drw 15 15 15) := by decide
theorem test_witness_NoWordSelectsTwoRows :
    opcodeRow (.drw 0 0 0) ∈ opcodeTable ∧ (opcodeRow (.drw 0 0 0)).selects 0xDFFF = true := by decide
/-- Of StepRunsTheDecodedInstruction: the word 1200 in the last two bytes that can be fetched. -/
theorem test_witness_StepRunsTheDecodedInstruction :
    let s := withBytes (State.reset.setPc 0xFFA) 0xFFA [0x12, 0x00]
    s.fault = none ∧ s.byteAt s.pc.toNat = some 0x12 ∧ s.byteAt (s.pc.toNat + 1) = some 0x00 ∧
    decode [0x12, 0x00] = .ok (.jp 0x200, []) := by decide
theorem test_witness_StepFaultsOnIllegalWordsAndUnfetchablePc :
    (State.reset.fault = none ∧ State.reset.byteAt 0x200 = some 0 ∧ State.reset.byteAt 0x201 = some 0 ∧
      ∀ i, decodeWord (wordOfBytes 0 0) ≠ .ok i) ∧
    4092 ≤ (State.reset.setPc 0xFFB).pc.toNat + 1 := by
  refine ⟨⟨by decide, by decide, by decide, fun i h => ?_⟩, by decide⟩
  rw [show decodeWord (wordOfBytes 0 0) = .error (.illegalWord 0) by decide] at h
  cases h
theorem test_witness_AFaultedCoreTakesNoStep :
    (State.reset.withFault .fetchOutOfRange 0xFFB none 0xFFB).fault = rec .fetchOutOfRange 0xFFB none 0xFFB := rfl
theorem test_witness_OperandChecksRaiseTheirFault :
    State.reset.stack = [] ∧ 16 ≤ ((withRegs [(5, 0x10)]).reg 5).toNat := by decide
/-- Each clause one address past the end of memory: 4090..4092, 4091..4092 and 4088..4092. -/
theorem test_witness_AccessesOutOfRangeRaiseAtTheLowestAddress :
    4092 < (State.reset.setIndex 4090).index.toNat + 3 ∧
    4092 < (State.reset.setIndex 4091).index.toNat + ((1 : Reg).val + 1) ∧
    (0 < 5 ∧ 4092 < (State.reset.setIndex 4088).index.toNat + 5) := by decide
/-- Of SubtractSetsNotBorrowThenVx and ShiftRightPutsTheLowBitInVf: each side of the hypothesis. -/
theorem test_witness_flag_alias_hypotheses :
    State.reset.params.flagAliasMode = .sequential ∧ ((0 : Reg) ≠ regF ∧ (1 : Reg) ≠ regF) ∧
    (withAlias State.reset .refuse).params.flagAliasMode ≠ .sequential := by decide
theorem test_witness_RefusedAliasFormsFault :
    (withAlias State.reset .refuse).params.flagAliasMode = .refuse := by decide
theorem test_witness_RandomByteIsInRangeAndMasked : (254 : Byte).toNat ≤ (254 : Byte).toNat := by decide
theorem test_witness_ReturnPopsAndContinuesAfterTheCall :
    (State.reset.push 0x200).stack = [] ++ [0x200] := by decide
/-- Of JumpSetsPc, FlatCallPushesAndJumps and LoadIndexWritesI: the largest address field, and a flat state. -/
theorem test_witness_address_hypotheses :
    (0xFFF : Word).toNat < 0x1000 ∧ (State.reset.withCallMode .flat).params.callMode = .flat := by decide
/-- The state of TC7 after the push and the jump, and that of TC9. -/
theorem test_witness_CallRunsItsTargetInTheSameStep :
    let s := withBytes (withBytes State.reset 0x208 [0x60, 0xF0]) 0x300 [0x24, 0x00]
    let u : Word → State := fun a => { s with stack := s.stack ++ [s.pc], pc := a }
    s.params.callMode = .nestedOneLevel ∧
    (u 0x208).fetch = some 0x60F0 ∧ decodeWord 0x60F0 = .ok (.ldVxKk 0 0xF0) ∧
    (u 0x300).fetch = some 0x2400 ∧ decodeWord 0x2400 = .ok (.call 0x400) := by decide
/-- TC13 at the first address that cannot be fetched from, and TC11. -/
theorem test_witness_NestedFetchAndDecodeFaultsKeepTheCall :
    let s := withBytes State.reset 0x300 [0x50, 0x10]
    let u : State := { s with stack := s.stack ++ [s.pc], pc := 0x300 }
    s.params.callMode ≠ .flat ∧ 4091 ≤ (0xFFB : Word).toNat ∧ u.fetch = some 0x5010 ∧
    (∀ i, decodeWord 0x5010 ≠ .ok i) := by
  refine ⟨by decide, by decide, by decide, fun i h => ?_⟩
  rw [show decodeWord 0x5010 = .error (.illegalWord 0x5010) by decide] at h
  cases h
/-- A call to a call, and the same under nested_recursive with a plain instruction. -/
theorem test_witness_RecursiveCallExecutesItsTarget :
    let s := (withBytes (withBytes State.reset 0x300 [0x24, 0x00]) 0x400 [0x60, 0x01]).withCallMode .nestedRecursive
    let u : Word → State := fun a => { s with stack := s.stack ++ [s.pc], pc := a }
    s.params.callMode = .nestedRecursive ∧
    (u 0x300).fetch = some 0x2400 ∧ decodeWord 0x2400 = .ok (.call 0x400) ∧
    (u 0x400).fetch = some 0x6001 ∧ decodeWord 0x6001 = .ok (.ldVxKk 0 0x01) := by decide
/-- TC15 (m = n), and a call to a call of a self-call (m other than n). -/
theorem test_witness_CallToASelfCallHasNoResult :
    let s := (withBytes State.reset 0x200 [0x22, 0x00, 0x22, 0x00]).withCallMode .nestedRecursive
    s.params.callMode = .nestedRecursive ∧ (s.setPc 0x200).fetch = some 0x2200 ∧
    decodeWord 0x2200 = .ok (.call 0x200) ∧ (s.setPc 0x202).fetch = some 0x2200 ∧ (0x202 : Word) ≠ 0x200 := by decide
/-- A cycle of two calls, 200 to 202 to 200, and a chain of three that runs into it from 204. -/
theorem test_witness_CallToASelfCallHasNoResult_on_a_cycle :
    let s := (withBytes State.reset 0x200 [0x22, 0x02, 0x22, 0x00, 0x22, 0x00]).withCallMode .nestedRecursive
    let chain : Word → Prop := fun a => a = 0x200 ∨ a = 0x202 ∨ a = 0x204
    s.params.callMode = .nestedRecursive ∧ chain 0x204 ∧
    ∀ a, chain a → ∃ w b, (s.setPc a).fetch = some w ∧ decodeWord w = .ok (.call b) ∧ chain b := by
  refine ⟨rfl, .inr (.inr rfl), ?_⟩
  rintro _ (rfl | rfl | rfl)
  · exact ⟨0x2202, 0x202, by decide, by decide, .inr (.inl rfl)⟩
  · exact ⟨0x2200, 0x200, by decide, by decide, .inl rfl⟩
  · exact ⟨0x2200, 0x200, by decide, by decide, .inl rfl⟩
/-- TC7 for the third clause, and TC12 for the last. -/
theorem test_witness_ReturnUndoesTheCall :
    (∃ t, exec (.call 0x300) (State.reset.withCallMode .flat) = .next t ∧ t.stack = t.stack) ∧
    (∃ t, exec (.call 0x208) (withBytes State.reset 0x208 [0x60, 0xF0]) = .next t ∧ t.stack = [0x200]) ∧
    ((withBytes State.reset 0x208 [0x60, 0xF0]).setPc 0x208).fetch = some 0x60F0 ∧
    decodeWord 0x60F0 = .ok (.ldVxKk 0 0xF0) ∧ State.reset.params.callMode ≠ .flat ∧
    ((withBytes State.reset 0x300 [0x00, 0xEE]).setPc 0x300).fetch = some 0x00EE := by
  exact ⟨⟨_, rfl, rfl⟩, ⟨_, rfl, rfl⟩, by decide, by decide, by decide, by decide⟩
theorem test_witness_NestedCallStepIsTwoFlatSteps :
    let s := State.reset.withFetchWord 16 0x2208
    s.fault = none ∧ s.params.callMode = .nestedOneLevel ∧ s.fetch = some 0x2208 ∧
    decodeWord 0x2208 = .ok (.call 0x208) := by decide
theorem test_witness_GlyphAddressIsFiveTimesTheDigit : ((withRegs [(0, 0x0F)]).reg 0).toNat < 16 := by decide
/-- Of BcdStoresThreeDigits and StoredBytesAreFetched: the last three bytes of memory, and a fetch across the first. -/
theorem test_witness_stores_at_the_end_of_memory :
    let s := State.reset.setIndex 0xFF9
    s.mem.wf = true ∧ s.index.toNat + 2 < 4092 ∧ (0xFF9 : Word).toNat + 1 < 4092 ∧ (0xFF8 : Word).toNat + 1 = s.index.toNat ∧
    (∃ t, exec (.ldBVx 0) s = .next t) := ⟨by decide, by decide, by decide, by decide, ⟨_, rfl⟩⟩
theorem test_witness_LoadRegistersReadsABlock :
    (State.reset.setIndex 0xFEC).index.toNat + (15 : Reg).val < 4092 ∧ ((15 : Reg) ≤ 15) ∧ ((3 : Reg) < 4) := by
  decide
/-- Of the three obligations about Dxyn: no rows at the end of the index range, and 15 rows at the end of memory. -/
theorem test_witness_draw_hypotheses :
    (0 < 16 ∧ 15 < 16) ∧ (State.reset.setIndex 0xFED).index.toNat + 15 ≤ 4092 ∧
    ((0 : Reg) ≠ regF ∧ (1 : Reg) ≠ regF) := by decide
theorem test_witness_KeySkipsFollowTheKeyLevel : ((withRegs [(5, 0x0F)]).reg 5).toNat = (15 : Key).val := by decide
theorem test_witness_KeyWaitTakesAPressedKeyOrWaits :
    (∀ k, State.reset.key k = false) ∧ (State.reset.setKey 15 true).key 15 = true := by decide
/-- Of OnlyFlagInstructionsWriteVf, EachPartHasItsWriters and VfIsZeroOrOneAfterFlagInstructions: 8xy4 sets VF, and
Annn, 00EE, Fx15, Fx18, 00E0 and Fx33 change what they write. -/
theorem test_witness_writers_of_each_part :
    nextIs (exec (.addVxVy 0 0) (withRegs [(0, 0x80)])) (fun t => t.reg regF != 0 && t.fault == none) = true ∧
    nextIs (exec (.ldVxKk 15 7) State.reset) (fun t => t.reg regF != 0) = true ∧
    nextIs (exec (.ldI 0x300) State.reset) (fun t => t.index != 0) = true ∧
    nextIs (exec .ret (State.reset.push 0x200)) (fun t => t.stack != [0x200]) = true ∧
    nextIs (exec (.ldDtVx 0) (withRegs [(0, 1)])) (fun t => t.dt != 0) = true ∧
    nextIs (exec (.ldStVx 0) (withRegs [(0, 1)])) (fun t => t.st != 0) = true ∧
    nextIs (exec (.ldBVx 0) ((withRegs [(0, 1)]).setIndex 0x300)) (fun t => t.mem != []) = true := by decide
theorem test_witness_cls_changes_the_screen :
    nextIs (exec .cls (State.reset.setFb (State.reset.fb.toggle 0 0))) (fun t => !t.pixel 0 0) = true ∧
    (State.reset.setFb (State.reset.fb.toggle 0 0)).pixel 0 0 = true := by decide
theorem test_witness_StepNeverChangesTheKeypad :
    (∃ t, step State.reset = .next t) ∧ (State.reset.withFetchWord 16 0xF00A).fault = none ∧
    (State.reset.withFetchWord 16 0xF00A).fetch = some 0xF00A ∧ decodeWord 0xF00A = .ok (.ldVxK 0) ∧
    (∀ k, (State.reset.withFetchWord 16 0xF00A).key k = false) := by
  exact ⟨⟨_, rfl⟩, by decide, by decide, by decide, by decide⟩
/-- 00EE on an empty stack, and TC11's call. -/
theorem test_witness_FaultsArePrecise :
    State.reset.fault = none ∧ (∀ n, Instr.ret ≠ .call n) ∧
    nextIs (exec .ret State.reset) (fun t => t.fault != none) = true ∧
    nextIs (exec (.call 0x300) State.reset) (fun t => t.fault != none) = true := by
  exact ⟨rfl, by simp, by decide, by decide⟩
theorem test_witness_StepOfARunningCoreAnswersNext :
    State.reset.fault = none ∧ State.reset.params.callMode ≠ .nestedRecursive := by decide
/-- Each instruction named in VfIsZeroOrOneAfterFlagInstructions answers a state without a fault. -/
theorem test_witness_VfIsZeroOrOneAfterFlagInstructions :
    State.reset.fault = none ∧
    nextIs (exec (.shrVxVy 15 0) State.reset) (fun t => t.fault == none) = true ∧
    nextIs (exec (.subVxVy 0 15) State.reset) (fun t => t.fault == none) = true ∧
    nextIs (exec (.drw 0 0 0) State.reset) (fun t => t.fault == none) = true := by decide
theorem test_witness_StepKeepsTheInvariant : State.reset.Inv ∧ ∃ t, step State.reset = .next t := by
  exact ⟨⟨rfl, by decide, by simp [State.reset]⟩, ⟨_, rfl⟩⟩
/-- A state at the edges of the invariant: pc and a stack entry at their largest, a cell in the last byte. -/
theorem test_witness_Inv_at_its_edges :
    let s := (withBytes (State.reset.setPc 0xFFF) 0xFFB [1]).push 0xFFA
    s.mem.wf = true ∧ s.pc.toNat < 4096 ∧ s.stack = [0xFFA] ∧ (0xFFA : Word).toNat + 1 < memSize := by decide
theorem test_witness_HostOperationsKeepTheInvariant :
    ∃ e', Session.start.perform (.load [0x12, 0x00]) = .next e' := ⟨_, rfl⟩
theorem test_witness_CanonicalMemoriesThatReadAlikeAreEqual :
    Memory.wf [(0x200, 0x12)] = true ∧ Memory.wf (Memory.write [] 0x200 0x12) = true ∧
    Memory.wf [(0x200, 0x00)] = false ∧ Memory.wf [(0x201, 1), (0x200, 1)] = false := by decide
theorem test_witness_AStoppedProgramStays :
    (withBytes (State.reset.setPc 0xFFA) 0xFFA [0x1F, 0xFA]).Stopped := by decide

end Sys2Proof.Tests
end

/-! PROOFS. The family 30_encoding.md: the decoder's answer for a word against the rows that select it (R74, R76, R77). -/

namespace Sys2Proof

/-! What the four masks of rule R74 test, as equations on the word's fields (R70, R71). -/

section RowTests
variable {m : String} {p w : Word} {lead sub : BitVec 4} {low : Byte}

theorem selects_iff_eq : (OpcodeRow.mk m p 0xFFFF#16).selects w = true ↔ w = p := by
  rw [OpcodeRow.selects, beq_iff_eq, and_FFFF]

theorem selects_iff_nibble1 (hp : p.toNat = lead.toNat * 4096) :
    (OpcodeRow.mk m p 0xF000#16).selects w = true ↔ nibble1 w = lead := by
  simp only [OpcodeRow.selects, beq_iff_eq, ← BitVec.toNat_inj, and_F000_toNat, nibble1_toNat]
  omega

theorem selects_iff_nibble1_nibble4 (hp : p.toNat = lead.toNat * 4096 + sub.toNat) :
    (OpcodeRow.mk m p 0xF00F#16).selects w = true ↔ nibble1 w = lead ∧ nibble4 w = sub := by
  simp only [OpcodeRow.selects, beq_iff_eq, ← BitVec.toNat_inj, and_F00F_toNat, nibble1_toNat, nibble4_toNat]
  omega

theorem selects_iff_nibble1_fieldKk (hp : p.toNat = lead.toNat * 4096 + low.toNat) :
    (OpcodeRow.mk m p 0xF0FF#16).selects w = true ↔ nibble1 w = lead ∧ fieldKk w = low := by
  simp only [OpcodeRow.selects, beq_iff_eq, ← BitVec.toNat_inj, and_F0FF_toNat, nibble1_toNat, fieldKk_toNat]
  omega

end RowTests

/-! What the decoder answers is selected by its row, or is the word's own refusal. -/

/-- An answer of the decoder that agrees with the table: an instruction whose row selects the word (R74), or the
refusal that names the word (R76). -/
def AnswerFits (w : Word) : Except DecodeError Instr → Prop
  | .ok i => (opcodeRow i).selects w = true
  | .error e => e = .illegalWord w

theorem decodeGroup0_fits (w : Word) : AnswerFits w (decodeGroup0 w) := by
  unfold decodeGroup0
  split_ifs with hcls hret
  · exact selects_iff_eq.2 hcls
  · exact selects_iff_eq.2 hret
  · exact rfl

theorem decodeGroup8_fits {w : Word} (h : nibble1 w = 8#4) : AnswerFits w (decodeGroup8 w) := by
  unfold decodeGroup8
  split_ifs with h0 h1 h2 h3 h4 h5 h6
  · exact (selects_iff_nibble1_nibble4 rfl).2 ⟨h, h0⟩
  · exact (selects_iff_nibble1_nibble4 rfl).2 ⟨h, h1⟩
  · exact (selects_iff_nibble1_nibble4 rfl).2 ⟨h, h2⟩
  · exact (selects_iff_nibble1_nibble4 rfl).2 ⟨h, h3⟩
  · exact (selects_iff_nibble1_nibble4 rfl).2 ⟨h, h4⟩
  · exact (selects_iff_nibble1_nibble4 rfl).2 ⟨h, h5⟩
  · exact (selects_iff_nibble1_nibble4 rfl).2 ⟨h, h6⟩
  · exact rfl

theorem decodeGroupE_fits {w : Word} (h : nibble1 w = 14#4) : AnswerFits w (decodeGroupE w) := by
  unfold decodeGroupE
  split_ifs with h9E hA1
  · exact (selects_iff_nibble1_fieldKk rfl).2 ⟨h, h9E⟩
  · exact (selects_iff_nibble1_fieldKk rfl).2 ⟨h, hA1⟩
  · exact rfl

theorem decodeGroupF_fits {w : Word} (h : nibble1 w = 15#4) : AnswerFits w (decodeGroupF w) := by
  unfold decodeGroupF
  split_ifs with h07 h0A h15 h18 h1E h29 h33 h65
  · exact (selects_iff_nibble1_fieldKk rfl).2 ⟨h, h07⟩
  · exact (selects_iff_nibble1_fieldKk rfl).2 ⟨h, h0A⟩
  · exact (selects_iff_nibble1_fieldKk rfl).2 ⟨h, h15⟩
  · exact (selects_iff_nibble1_fieldKk rfl).2 ⟨h, h18⟩
  · exact (selects_iff_nibble1_fieldKk rfl).2 ⟨h, h1E⟩
  · exact (selects_iff_nibble1_fieldKk rfl).2 ⟨h, h29⟩
  · exact (selects_iff_nibble1_fieldKk rfl).2 ⟨h, h33⟩
  · exact (selects_iff_nibble1_fieldKk rfl).2 ⟨h, h65⟩
  · exact rfl

theorem decodeWord_fits (w : Word) : AnswerFits w (decodeWord w) := by
  obtain h | h | h | h | h | h | h | h | h | h | h | h | h | h | h | h := nibble1_cases w
  · rw [decodeWord_lead0 h]; exact decodeGroup0_fits w
  · rw [decodeWord_lead1 h]; exact (selects_iff_nibble1 rfl).2 h
  · rw [decodeWord_lead2 h]; exact (selects_iff_nibble1 rfl).2 h
  · rw [decodeWord_lead3 h]; exact (selects_iff_nibble1 rfl).2 h
  · rw [decodeWord_lead4 h]; exact (selects_iff_nibble1 rfl).2 h
  · rw [decodeWord_lead5 h]; exact rfl
  · rw [decodeWord_lead6 h]; exact (selects_iff_nibble1 rfl).2 h
  · rw [decodeWord_lead7 h]; exact (selects_iff_nibble1 rfl).2 h
  · rw [decodeWord_lead8 h]; exact decodeGroup8_fits h
  · rw [decodeWord_lead9 h]; exact rfl
  · rw [decodeWord_leadA h]; exact (selects_iff_nibble1 rfl).2 h
  · rw [decodeWord_leadB h]; exact rfl
  · rw [decodeWord_leadC h]; exact (selects_iff_nibble1 rfl).2 h
  · rw [decodeWord_leadD h]; exact (selects_iff_nibble1 rfl).2 h
  · rw [decodeWord_leadE h]; exact decodeGroupE_fits h
  · rw [decodeWord_leadF h]; exact decodeGroupF_fits h

/-! The other direction: a word that a row selects decodes, and to an instruction of that row. -/

section GroupRows
variable {m : String} {p w : Word} {lead sub : BitVec 4} {low : Byte} {j : Instr}

theorem decodeWord_of_selects_group8 (h : (OpcodeRow.mk m p 0xF00F#16).selects w = true)
    (hp : p.toNat = (8#4).toNat * 4096 + sub.toNat) (hj : nibble4 w = sub → decodeGroup8 w = .ok j) :
    decodeWord w = .ok j := by
  obtain ⟨hlead, hsub⟩ := (selects_iff_nibble1_nibble4 hp).1 h
  rw [decodeWord_lead8 hlead, hj hsub]

/-- The rows of the E and of the F group, whose sub-opcode is the low byte. -/
theorem decodeWord_of_selects_lowGroup {group : Word → Except DecodeError Instr}
    (hgroup : nibble1 w = lead → decodeWord w = group w) (h : (OpcodeRow.mk m p 0xF0FF#16).selects w = true)
    (hp : p.toNat = lead.toNat * 4096 + low.toNat) (hj : fieldKk w = low → group w = .ok j) :
    decodeWord w = .ok j := by
  obtain ⟨hlead, hlow⟩ := (selects_iff_nibble1_fieldKk hp).1 h
  rw [hgroup hlead, hj hlow]

end GroupRows

/-- The decoder finds every row of R74: no test before a row's own takes a word of that row. -/
theorem decodeWord_of_selects {w : Word} {i : Instr} (h : (opcodeRow i).selects w = true) :
    ∃ j, decodeWord w = .ok j ∧ opcodeRow j = opcodeRow i := by
  cases i with
  | cls => exact ⟨.cls, by rw [selects_iff_eq.1 h]; rfl, rfl⟩
  | ret => exact ⟨.ret, by rw [selects_iff_eq.1 h]; rfl, rfl⟩
  | jp _ => exact ⟨_, decodeWord_lead1 ((selects_iff_nibble1 rfl).1 h), rfl⟩
  | call _ => exact ⟨_, decodeWord_lead2 ((selects_iff_nibble1 rfl).1 h), rfl⟩
  | seVxKk _ _ => exact ⟨_, decodeWord_lead3 ((selects_iff_nibble1 rfl).1 h), rfl⟩
  | sneVxKk _ _ => exact ⟨_, decodeWord_lead4 ((selects_iff_nibble1 rfl).1 h), rfl⟩
  | ldVxKk _ _ => exact ⟨_, decodeWord_lead6 ((selects_iff_nibble1 rfl).1 h), rfl⟩
  | addVxKk _ _ => exact ⟨_, decodeWord_lead7 ((selects_iff_nibble1 rfl).1 h), rfl⟩
  | ldVxVy _ _ => exact ⟨.ldVxVy (fieldX w) (fieldY w),
      decodeWord_of_selects_group8 (sub := 0) h rfl fun hsub => by simp [decodeGroup8, hsub], rfl⟩
  | orVxVy _ _ => exact ⟨.orVxVy (fieldX w) (fieldY w),
      decodeWord_of_selects_group8 (sub := 1) h rfl fun hsub => by simp [decodeGroup8, hsub], rfl⟩
  | andVxVy _ _ => exact ⟨.andVxVy (fieldX w) (fieldY w),
      decodeWord_of_selects_group8 (sub := 2) h rfl fun hsub => by simp [decodeGroup8, hsub], rfl⟩
  | xorVxVy _ _ => exact ⟨.xorVxVy (fieldX w) (fieldY w),
      decodeWord_of_selects_group8 (sub := 3) h rfl fun hsub => by simp [decodeGroup8, hsub], rfl⟩
  | addVxVy _ _ => exact ⟨.addVxVy (fieldX w) (fieldY w),
      decodeWord_of_selects_group8 (sub := 4) h rfl fun hsub => by simp [decodeGroup8, hsub], rfl⟩
  | subVxVy _ _ => exact ⟨.subVxVy (fieldX w) (fieldY w),
      decodeWord_of_selects_group8 (sub := 5) h rfl fun hsub => by simp [decodeGroup8, hsub], rfl⟩
  | shrVxVy _ _ => exact ⟨.shrVxVy (fieldX w) (fieldY w),
      decodeWord_of_selects_group8 (sub := 6) h rfl fun hsub => by simp [decodeGroup8, hsub], rfl⟩
  | ldI _ => exact ⟨_, decodeWord_leadA ((selects_iff_nibble1 rfl).1 h), rfl⟩
  | rnd _ _ => exact ⟨_, decodeWord_leadC ((selects_iff_nibble1 rfl).1 h), rfl⟩
  | drw _ _ _ => exact ⟨_, decodeWord_leadD ((selects_iff_nibble1 rfl).1 h), rfl⟩
  | skp _ => exact ⟨.skp (fieldX w),
      decodeWord_of_selects_lowGroup (low := 0x9E) decodeWord_leadE h rfl fun hlow => by simp [decodeGroupE, hlow], rfl⟩
  | sknp _ => exact ⟨.sknp (fieldX w),
      decodeWord_of_selects_lowGroup (low := 0xA1) decodeWord_leadE h rfl fun hlow => by simp [decodeGroupE, hlow], rfl⟩
  | ldVxDt _ => exact ⟨.ldVxDt (fieldX w),
      decodeWord_of_selects_lowGroup (low := 0x07) decodeWord_leadF h rfl fun hlow => by simp [decodeGroupF, hlow], rfl⟩
  | ldVxK _ => exact ⟨.ldVxK (fieldX w),
      decodeWord_of_selects_lowGroup (low := 0x0A) decodeWord_leadF h rfl fun hlow => by simp [decodeGroupF, hlow], rfl⟩
  | ldDtVx _ => exact ⟨.ldDtVx (fieldX w),
      decodeWord_of_selects_lowGroup (low := 0x15) decodeWord_leadF h rfl fun hlow => by simp [decodeGroupF, hlow], rfl⟩
  | ldStVx _ => exact ⟨.ldStVx (fieldX w),
      decodeWord_of_selects_lowGroup (low := 0x18) decodeWord_leadF h rfl fun hlow => by simp [decodeGroupF, hlow], rfl⟩
  | addIVx _ => exact ⟨.addIVx (fieldX w),
      decodeWord_of_selects_lowGroup (low := 0x1E) decodeWord_leadF h rfl fun hlow => by simp [decodeGroupF, hlow], rfl⟩
  | ldFVx _ => exact ⟨.ldFVx (fieldX w),
      decodeWord_of_selects_lowGroup (low := 0x29) decodeWord_leadF h rfl fun hlow => by simp [decodeGroupF, hlow], rfl⟩
  | ldBVx _ => exact ⟨.ldBVx (fieldX w),
      decodeWord_of_selects_lowGroup (low := 0x33) decodeWord_leadF h rfl fun hlow => by simp [decodeGroupF, hlow], rfl⟩
  | ldVxMem _ => exact ⟨.ldVxMem (fieldX w),
      decodeWord_of_selects_lowGroup (low := 0x65) decodeWord_leadF h rfl fun hlow => by simp [decodeGroupF, hlow], rfl⟩

theorem opcodeRow_mem_opcodeTable (i : Instr) : opcodeRow i ∈ opcodeTable := by
  cases i <;> simp [opcodeTable, rowSamples, samples1to8, samples9to15, samples16to20, samples21to28, opcodeRow]

/-- Settles O9: by the decoder's answer. An instruction's row selects the word; after a refusal no row does, since a
word that a row selects decodes. -/
theorem everyWordIsARowOrIllegal : Obligations.EveryWordIsARowOrIllegal := by
  intro w
  have hfits := decodeWord_fits w
  cases hd : decodeWord w with
  | ok i =>
    rw [hd] at hfits
    exact .inl ⟨i, rfl, opcodeRow_mem_opcodeTable i, hfits⟩
  | error e =>
    rw [hd] at hfits
    refine .inr ⟨congrArg _ hfits, fun r hr => ?_⟩
    obtain ⟨i, -, rfl⟩ := List.mem_map.1 hr
    refine Bool.eq_false_iff.2 fun hsel => ?_
    obtain ⟨j, hj, -⟩ := decodeWord_of_selects hsel
    simp [hd] at hj

end Sys2Proof

/-! PROOFS. The family 40_control.md: the skips on an immediate (R103, R104). -/

namespace Sys2Proof

/-! The fields of a word that `encodeXKk` writes (R70, R71). -/

theorem nibble1_encodeXKk {op kk : Nat} (x : Reg) (ho : op < 16) (hk : kk < 256) :
    nibble1 (encodeXKk op x kk) = BitVec.ofNat 4 op := by
  rw [bv_eq_iff_toNat _ op ho, nibble1_toNat, encodeXKk_toNat x ho hk]
  omega

theorem fieldX_encodeXKk {op kk : Nat} (x : Reg) (ho : op < 16) (hk : kk < 256) :
    fieldX (encodeXKk op x kk) = x := by
  apply Fin.ext
  rw [fieldX_val, encodeXKk_toNat x ho hk]
  omega

theorem fieldKk_encodeXKk {op : Nat} (x : Reg) (kk : Byte) (ho : op < 16) :
    fieldKk (encodeXKk op x kk.toNat) = kk := by
  apply BitVec.eq_of_toNat_eq
  rw [fieldKk_toNat, encodeXKk_toNat x ho kk.isLt]
  omega

end Sys2Proof

namespace Sys2Proof.Machine

theorem encodedAs_seVxKk (x : Reg) (kk : Byte) : EncodedAs (.seVxKk x kk) 0x3000 0xF000 := by
  refine ⟨Laws.SelectsItsRow.seVxKk x kk rfl, ?_⟩
  rw [encode, decodeWord_lead3 (nibble1_encodeXKk x (by decide) kk.isLt),
    fieldX_encodeXKk x (by decide) kk.isLt, fieldKk_encodeXKk x kk (by decide)]

theorem encodedAs_sneVxKk (x : Reg) (kk : Byte) : EncodedAs (.sneVxKk x kk) 0x4000 0xF000 := by
  refine ⟨Laws.SelectsItsRow.sneVxKk x kk rfl, ?_⟩
  rw [encode, decodeWord_lead4 (nibble1_encodeXKk x (by decide) kk.isLt),
    fieldX_encodeXKk x (by decide) kk.isLt, fieldKk_encodeXKk x kk (by decide)]

theorem exec_seVxKk (x : Reg) (kk : Byte) (s : State) :
    exec (.seVxKk x kk) s = .next (s.skipIf (s.reg x == kk)) := rfl

theorem exec_sneVxKk (x : Reg) (kk : Byte) (s : State) :
    exec (.sneVxKk x kk) s = .next (s.skipIf (s.reg x != kk)) := rfl

/-- The frame of every conditional skip: pc alone. -/
theorem State.skipIf_changesOnly_pc (s : State) (c : Bool) : ChangesOnly [.pc] [] s (s.skipIf c) := by
  constructor <;> simp

/-- From 4091 on the second byte of a word lies past the end of memory (R79). -/
theorem State.fetch_eq_none_of_le {s : State} (h : 4091 ≤ s.pc.toNat) : s.fetch = none :=
  State.fetch_eq_none.2 (Nat.succ_le_succ h)

/-- Settles O29: both instructions are `skipIf` on their own condition, which writes pc alone. -/
theorem skipsOnImmediateMovePc : Obligations.SkipsOnImmediateMovePc := by
  intro x kk s
  refine ⟨⟨encodedAs_seVxKk x kk, encodedAs_sneVxKk x kk⟩,
    ⟨_, exec_seVxKk x kk s, ?_, State.fetch_eq_none_of_le, s.skipIf_changesOnly_pc _⟩,
    ⟨_, exec_sneVxKk x kk s, ?_, State.fetch_eq_none_of_le, s.skipIf_changesOnly_pc _⟩⟩
  · simp only [State.skipIf_pc, beq_iff_eq]
  · simp only [State.skipIf_pc, bne_iff_ne]

end Sys2Proof.Machine

/-! PROOFS. The family 41_alu.md: the immediates, the copy, the logic operations and the addition (R122 to R128). -/

namespace Sys2Proof

/-! The fields of a word that `encodeXYN` writes (R70, R71). -/

theorem nibble1_encodeXYN {op : Nat} (x y : Reg) (n : Nat) (ho : op < 16) :
    nibble1 (encodeXYN op x y n) = BitVec.ofNat 4 op := by
  rw [bv_eq_iff_toNat _ op ho, nibble1_toNat, encodeXYN_toNat x y n ho]
  omega

theorem fieldX_encodeXYN {op : Nat} (x y : Reg) (n : Nat) (ho : op < 16) : fieldX (encodeXYN op x y n) = x := by
  apply Fin.ext
  rw [fieldX_val, encodeXYN_toNat x y n ho]
  omega

theorem fieldY_encodeXYN {op : Nat} (x y : Reg) (n : Nat) (ho : op < 16) : fieldY (encodeXYN op x y n) = y := by
  apply Fin.ext
  rw [fieldY_val, encodeXYN_toNat x y n ho]
  omega

theorem nibble4_encodeXYN {op n : Nat} (x y : Reg) (ho : op < 16) (hn : n < 16) :
    nibble4 (encodeXYN op x y n) = BitVec.ofNat 4 n := by
  rw [bv_eq_iff_toNat _ n hn, nibble4_toNat, encodeXYN_toNat x y n ho]
  omega

end Sys2Proof

namespace Sys2Proof.Machine

/-! The encoding lines (R122 to R128). -/

theorem encodedAs_ldVxKk (x : Reg) (kk : Byte) : EncodedAs (.ldVxKk x kk) 0x6000 0xF000 := by
  refine ⟨Laws.SelectsItsRow.ldVxKk x kk rfl, ?_⟩
  rw [encode, decodeWord_lead6 (nibble1_encodeXKk x (by decide) kk.isLt),
    fieldX_encodeXKk x (by decide) kk.isLt, fieldKk_encodeXKk x kk (by decide)]

theorem encodedAs_addVxKk (x : Reg) (kk : Byte) : EncodedAs (.addVxKk x kk) 0x7000 0xF000 := by
  refine ⟨Laws.SelectsItsRow.addVxKk x kk rfl, ?_⟩
  rw [encode, decodeWord_lead7 (nibble1_encodeXKk x (by decide) kk.isLt),
    fieldX_encodeXKk x (by decide) kk.isLt, fieldKk_encodeXKk x kk (by decide)]

/-- The rows of the 8 group: it is enough that `decodeGroup8` finds the instruction by the row's sub-opcode n. -/
theorem encodedAs_of_group8 {i : Instr} {x y : Reg} {n : Nat} {p : Word} (hrow : encode i &&& 0xF00F = p)
    (he : encode i = encodeXYN 8 x y n) (hn : n < 16)
    (hsub : ∀ w, nibble4 w = BitVec.ofNat 4 n → fieldX w = x → fieldY w = y → decodeGroup8 w = .ok i) :
    EncodedAs i p 0xF00F := by
  refine ⟨hrow, ?_⟩
  rw [he, decodeWord_lead8 (nibble1_encodeXYN x y n (by decide))]
  exact hsub _ (nibble4_encodeXYN x y (by decide) hn) (fieldX_encodeXYN x y n (by decide))
    (fieldY_encodeXYN x y n (by decide))

theorem encodedAs_ldVxVy (x y : Reg) : EncodedAs (.ldVxVy x y) 0x8000 0xF00F :=
  encodedAs_of_group8 (Laws.SelectsItsRow.ldVxVy x y rfl) rfl (by decide)
    fun w hn hx hy => by simp [decodeGroup8, hn, hx, hy]

theorem encodedAs_orVxVy (x y : Reg) : EncodedAs (.orVxVy x y) 0x8001 0xF00F :=
  encodedAs_of_group8 (Laws.SelectsItsRow.orVxVy x y rfl) rfl (by decide)
    fun w hn hx hy => by simp [decodeGroup8, hn, hx, hy]

theorem encodedAs_andVxVy (x y : Reg) : EncodedAs (.andVxVy x y) 0x8002 0xF00F :=
  encodedAs_of_group8 (Laws.SelectsItsRow.andVxVy x y rfl) rfl (by decide)
    fun w hn hx hy => by simp [decodeGroup8, hn, hx, hy]

theorem encodedAs_xorVxVy (x y : Reg) : EncodedAs (.xorVxVy x y) 0x8003 0xF00F :=
  encodedAs_of_group8 (Laws.SelectsItsRow.xorVxVy x y rfl) rfl (by decide)
    fun w hn hx hy => by simp [decodeGroup8, hn, hx, hy]

theorem encodedAs_addVxVy (x y : Reg) : EncodedAs (.addVxVy x y) 0x8004 0xF00F :=
  encodedAs_of_group8 (Laws.SelectsItsRow.addVxVy x y rfl) rfl (by decide)
    fun w hn hx hy => by simp [decodeGroup8, hn, hx, hy]

/-! What each instruction writes, as register writes and the advance of pc. -/

theorem exec_ldVxKk (x : Reg) (kk : Byte) (s : State) :
    exec (.ldVxKk x kk) s = .next (s.setReg x kk).advance := rfl

theorem exec_addVxKk (x : Reg) (kk : Byte) (s : State) :
    exec (.addVxKk x kk) s = .next (s.setReg x (s.reg x + kk)).advance := rfl

theorem exec_ldVxVy (x y : Reg) (s : State) :
    exec (.ldVxVy x y) s = .next (s.setReg x (s.reg y)).advance := rfl

theorem exec_orVxVy (x y : Reg) (s : State) :
    exec (.orVxVy x y) s = .next (s.setReg x (s.reg x ||| s.reg y)).advance := rfl

theorem exec_andVxVy (x y : Reg) (s : State) :
    exec (.andVxVy x y) s = .next (s.setReg x (s.reg x &&& s.reg y)).advance := rfl

theorem exec_xorVxVy (x y : Reg) (s : State) :
    exec (.xorVxVy x y) s = .next (s.setReg x (s.reg x ^^^ s.reg y)).advance := rfl

theorem exec_addVxVy (x y : Reg) (s : State) :
    exec (.addVxVy x y) s = .next
      ((s.setReg x (s.reg x + s.reg y)).setReg regF (carryFlag (s.reg x) (s.reg y))).advance := rfl

/-! The effect and the frame of those writes. -/

theorem carryFlag_eq (a b : Byte) : carryFlag a b = if a.toNat + b.toNat > 255 then 1 else 0 := by
  simp only [carryFlag, flagByte, decide_eq_true_eq]

theorem State.setReg_advance_reg_self (s : State) (x : Reg) (b : Byte) : (s.setReg x b).advance.reg x = b := by
  rw [State.advance_reg, State.setReg_reg, if_pos rfl]

/-- The frame of 6xkk, 7xkk and 8xy0 to 8xy3, which write no flag: VF changes only when it is Vx (R21). -/
theorem State.setReg_advance_changesOnly (s : State) (x : Reg) (b : Byte) :
    ChangesOnly [.pc] [x] s (s.setReg x b).advance := by
  constructor <;> simp +contextual

/-- The frame of an ALU instruction that makes two register writes, its result and its flag. -/
theorem State.setReg_setReg_advance_changesOnly (s : State) (x y : Reg) (b c : Byte) :
    ChangesOnly [.pc] [x, y] s ((s.setReg x b).setReg y c).advance := by
  constructor <;> simp +contextual

/-! The obligations. -/

/-- Settles O18: the instruction is one register write and the advance of pc. -/
theorem loadImmediateWritesVx : Obligations.LoadImmediateWritesVx := fun x kk s =>
  ⟨encodedAs_ldVxKk x kk, _, exec_ldVxKk x kk s, s.setReg_advance_reg_self x kk, State.advance_pc _,
    s.setReg_advance_changesOnly x kk⟩

/-- Settles O19: the byte written is the sum of two bytes, which `BitVec` addition takes modulo 256. -/
theorem addImmediateWrapsWithoutAFlag : Obligations.AddImmediateWrapsWithoutAFlag := by
  intro x kk s
  refine ⟨encodedAs_addVxKk x kk, _, exec_addVxKk x kk s, ?_, State.advance_pc _, s.setReg_advance_changesOnly x _⟩
  rw [State.setReg_advance_reg_self, BitVec.toNat_add]

/-- Settles O20: the byte written is Vy, read before the write. -/
theorem copyRegisterWritesVx : Obligations.CopyRegisterWritesVx := fun x y s =>
  ⟨encodedAs_ldVxVy x y, _, exec_ldVxVy x y s, s.setReg_advance_reg_self x _, State.advance_pc _,
    s.setReg_advance_changesOnly x _⟩

/-- Settles O21: each of the three writes one byte to Vx, whose bits are those of the `BitVec` operation. -/
theorem logicOperationsWorkBitByBit : Obligations.LogicOperationsWorkBitByBit := by
  intro x y s
  refine ⟨⟨encodedAs_orVxVy x y, encodedAs_andVxVy x y, encodedAs_xorVxVy x y⟩,
    ⟨_, exec_orVxVy x y s, fun j => ?_, State.advance_pc _, s.setReg_advance_changesOnly x _⟩,
    ⟨_, exec_andVxVy x y s, fun j => ?_, State.advance_pc _, s.setReg_advance_changesOnly x _⟩,
    ⟨_, exec_xorVxVy x y s, fun j => ?_, State.advance_pc _, s.setReg_advance_changesOnly x _⟩⟩
  · rw [State.setReg_advance_reg_self, BitVec.getLsbD_or]
  · rw [State.setReg_advance_reg_self, BitVec.getLsbD_and]
  · rw [State.setReg_advance_reg_self, BitVec.getLsbD_xor]

/-- Settles O22: VF is written last, so it holds the carry of the operands read before either write, and the sum
stays in Vx unless x = F. -/
theorem addRegistersSetsCarry : Obligations.AddRegistersSetsCarry := by
  intro x y s
  refine ⟨encodedAs_addVxVy x y, _, exec_addVxVy x y s, fun hx => ?_, ?_, State.advance_pc _,
    s.setReg_setReg_advance_changesOnly x regF _ _⟩
  · rw [State.advance_reg, State.setReg_reg, if_neg hx, State.setReg_reg, if_pos rfl, BitVec.toNat_add]
  · rw [State.setReg_advance_reg_self, carryFlag_eq]

end Sys2Proof.Machine

/-! PROOFS. The family 42_index_memory.md: the load of the index register (R151). -/

namespace Sys2Proof

/-! The fields of a word that `encodeAddr` writes (R70, R71). -/

theorem nibble1_encodeAddr {op : Nat} (nnn : Word) (ho : op < 16) :
    nibble1 (encodeAddr op nnn) = BitVec.ofNat 4 op := by
  rw [bv_eq_iff_toNat _ op ho, nibble1_toNat, encodeAddr_toNat nnn ho]
  omega

theorem fieldNnn_encodeAddr {op : Nat} {nnn : Word} (ho : op < 16) (hn : nnn.toNat < 0x1000) :
    fieldNnn (encodeAddr op nnn) = nnn := by
  apply BitVec.eq_of_toNat_eq
  rw [fieldNnn_toNat, encodeAddr_toNat nnn ho]
  omega

end Sys2Proof

namespace Sys2Proof.Machine

theorem encodedAs_ldI {nnn : Word} (hn : nnn.toNat < 0x1000) : EncodedAs (.ldI nnn) 0xA000 0xF000 := by
  refine ⟨Laws.SelectsItsRow.ldI nnn (decide_eq_true hn), ?_⟩
  rw [encode, decodeWord_leadA (nibble1_encodeAddr nnn (by decide)), fieldNnn_encodeAddr (by decide) hn]

theorem exec_ldI (nnn : Word) (s : State) : exec (.ldI nnn) s = .next (s.setIndex nnn).advance := rfl

theorem State.setIndex_advance_index (s : State) (a : Word) : (s.setIndex a).advance.index = a := by
  rw [State.advance_index, State.setIndex_index]

/-- The frame of every instruction that loads I: no register, so no flag, and no memory access (R23). -/
theorem State.setIndex_advance_changesOnly (s : State) (a : Word) :
    ChangesOnly [.pc, .index] [] s (s.setIndex a).advance := by
  constructor <;> simp

/-- Settles O37: the instruction is one write of I and the advance of pc, with no bounds check on nnn. -/
theorem loadIndexWritesI : Obligations.LoadIndexWritesI := fun nnn s hn =>
  ⟨encodedAs_ldI hn, _, exec_ldI nnn s, s.setIndex_advance_index nnn, State.advance_pc _,
    s.setIndex_advance_changesOnly nnn⟩

end Sys2Proof.Machine

/-! PROOFS. The family 43_display.md: the clear of the screen (R171). -/

namespace Sys2Proof.Machine

theorem encodedAs_cls : EncodedAs .cls 0x00E0 0xFFFF :=
  ⟨Laws.SelectsItsRow.cls rfl, decodeWord_lead0 rfl⟩

theorem exec_cls (s : State) : exec .cls s = .next (s.setFb Screen.clear).advance := rfl

theorem State.setFb_advance_pixel (s : State) (f : Screen) (px : Fin 64) (py : Fin 32) :
    (s.setFb f).advance.pixel px py = f.get px py := by
  rw [State.advance_pixel, State.setFb_pixel]

/-- The frame of an instruction that replaces the framebuffer: no register, so VF stays. -/
theorem State.setFb_advance_changesOnly (s : State) (f : Screen) :
    ChangesOnly [.pc, .fb] [] s (s.setFb f).advance := by
  constructor <;> simp

/-- Settles O43: the instruction is one write of the framebuffer, the cleared screen, and the advance of pc. -/
theorem clearScreenClearsEveryPixel : Obligations.ClearScreenClearsEveryPixel := by
  refine ⟨encodedAs_cls, fun s => ⟨_, exec_cls s, fun px py => ?_, State.advance_pc _, s.setFb_advance_changesOnly _⟩⟩
  rw [State.setFb_advance_pixel, Screen.clear_get]

end Sys2Proof.Machine

/-! PROOFS. The family 44_keys_timers.md: the timer instructions (R193, R195, R196). -/

namespace Sys2Proof.Machine

/-- The rows of the F group: it is enough that `decodeGroupF` finds the instruction by the row's sub-opcode kk. -/
theorem encodedAs_of_groupF {i : Instr} {x : Reg} {kk : Byte} {p : Word} (hrow : encode i &&& 0xF0FF = p)
    (he : encode i = encodeXKk 15 x kk.toNat)
    (hsub : ∀ w, fieldKk w = kk → fieldX w = x → decodeGroupF w = .ok i) : EncodedAs i p 0xF0FF := by
  refine ⟨hrow, ?_⟩
  rw [he, decodeWord_leadF (nibble1_encodeXKk x (by decide) kk.isLt)]
  exact hsub _ (fieldKk_encodeXKk x kk (by decide)) (fieldX_encodeXKk x (by decide) kk.isLt)

theorem encodedAs_ldVxDt (x : Reg) : EncodedAs (.ldVxDt x) 0xF007 0xF0FF :=
  encodedAs_of_groupF (kk := 0x07) (Laws.SelectsItsRow.ldVxDt x rfl) rfl
    fun w hkk hx => by simp [decodeGroupF, hkk, hx]

theorem encodedAs_ldDtVx (x : Reg) : EncodedAs (.ldDtVx x) 0xF015 0xF0FF :=
  encodedAs_of_groupF (kk := 0x15) (Laws.SelectsItsRow.ldDtVx x rfl) rfl
    fun w hkk hx => by simp [decodeGroupF, hkk, hx]

theorem encodedAs_ldStVx (x : Reg) : EncodedAs (.ldStVx x) 0xF018 0xF0FF :=
  encodedAs_of_groupF (kk := 0x18) (Laws.SelectsItsRow.ldStVx x rfl) rfl
    fun w hkk hx => by simp [decodeGroupF, hkk, hx]

/-! What each instruction writes: one register or one timer, and the advance of pc. -/

theorem exec_ldVxDt (x : Reg) (s : State) : exec (.ldVxDt x) s = .next (s.setReg x s.dt).advance := rfl

theorem exec_ldDtVx (x : Reg) (s : State) : exec (.ldDtVx x) s = .next (s.setDt (s.reg x)).advance := rfl

theorem exec_ldStVx (x : Reg) (s : State) : exec (.ldStVx x) s = .next (s.setSt (s.reg x)).advance := rfl

/-! The effect and the frame of the timer writes. -/

theorem State.setDt_advance_dt (s : State) (b : Byte) : (s.setDt b).advance.dt = b := by
  rw [State.advance_dt, State.setDt_dt]

theorem State.setSt_advance_st (s : State) (b : Byte) : (s.setSt b).advance.st = b := by
  rw [State.advance_st, State.setSt_st]

/-- The sound output follows the new value of ST (R196, R220). -/
theorem State.setSt_advance_soundActive (s : State) (b : Byte) : (s.setSt b).advance.soundActive = (b != 0) := by
  rw [State.soundActive, State.setSt_advance_st]

/-- The frame of a write of DT: no register, and ST stays. -/
theorem State.setDt_advance_changesOnly (s : State) (b : Byte) :
    ChangesOnly [.pc, .dt] [] s (s.setDt b).advance := by
  constructor <;> simp

/-- The frame of a write of ST: no register, and DT stays. -/
theorem State.setSt_advance_changesOnly (s : State) (b : Byte) :
    ChangesOnly [.pc, .st] [] s (s.setSt b).advance := by
  constructor <;> simp

/-- Settles O48: each of the three is one write, of Vx, DT or ST, and the advance of pc. -/
theorem timersAreReadAndWritten : Obligations.TimersAreReadAndWritten := fun x s =>
  ⟨⟨encodedAs_ldVxDt x, encodedAs_ldDtVx x, encodedAs_ldStVx x⟩,
    ⟨_, exec_ldVxDt x s, s.setReg_advance_reg_self x _, State.advance_pc _, s.setReg_advance_changesOnly x _⟩,
    ⟨_, exec_ldDtVx x s, s.setDt_advance_dt _, State.advance_pc _, s.setDt_advance_changesOnly _⟩,
    ⟨_, exec_ldStVx x s, s.setSt_advance_st _, s.setSt_advance_soundActive _, State.advance_pc _,
      s.setSt_advance_changesOnly _⟩⟩

end Sys2Proof.Machine

/-! PROOFS. The family 70_reset_and_hazards.md: the keypad under Step, and the wait of Fx0A (R247). -/

namespace Sys2Proof.Machine

/-! What a Step can do, said once for the three values of CALL_MODE: it goes down a chain of calls, of any length, and
ends with an instruction that is no call, with the jump of the last call, or with a fault of Fetch or of Decode. -/

/-- From `s` to `t` by the push and the jump of the call that stands at the pc of `s` (R102). -/
def CallsInto (s t : State) : Prop :=
  ∃ w nnn, s.fetch = some w ∧ decodeWord w = .ok (.call nnn) ∧ t = s.enterCall nnn

/-- What the instruction at the pc of `s` can answer, the nested instructions of a call included (R78, R102, R105). -/
inductive RunsTo : State → State → Prop where
  | faultEntry {s : State} {r : FaultRecord} (hpc : r.pc = s.pc) (hw : r.w = s.fetch) :
      RunsTo s (s.setFault (some r))
  | plain {s t : State} {w : Word} {i : Instr} (hf : s.fetch = some w) (hd : decodeWord w = .ok i)
      (hi : ∀ n, i ≠ .call n) (he : exec i s = .next t) : RunsTo s t
  | jump {s t : State} (hc : CallsInto s t) : RunsTo s t
  | nested {s u t : State} (hc : CallsInto s u) (hr : RunsTo u t) : RunsTo s t

/-- Fetch-and-run answers what `RunsTo` allows, when the runner gives every instruction but CALL its top-level meaning
and its calls answer what `RunsTo` allows. -/
theorem RunsTo.of_fetchExecute {run : Instr → State → Result} {s t : State}
    (hplain : ∀ i, (∀ n, i ≠ .call n) → run i s = exec i s)
    (hcall : ∀ n, CallsInto s (s.enterCall n) → run (.call n) s = .next t → RunsTo s t)
    (h : fetchExecute run s = .next t) : RunsTo s t := by
  obtain ⟨hf, he⟩ | ⟨w, hf, _, he⟩ | ⟨w, i, hf, hd, he⟩ := fetchExecute_cases run s
  · obtain rfl := Host.Outcome.next.inj (he.symm.trans h)
    exact .faultEntry rfl hf.symm
  · obtain rfl := Host.Outcome.next.inj (he.symm.trans h)
    exact .faultEntry rfl hf.symm
  · rw [he] at h
    by_cases hi : ∃ n, i = .call n
    · obtain ⟨n, rfl⟩ := hi
      exact hcall n ⟨w, n, hf, hd, rfl⟩ h
    · have hi : ∀ n, i ≠ .call n := not_exists.1 hi
      exact .plain hf hd hi (hplain i hi ▸ h)

/-- Outside CALL, an instruction of a chain has its top-level meaning (R105). -/
theorem execInChain_eq_exec {rest : State → Result} {i : Instr} (hi : ∀ n, i ≠ .call n) (s : State) :
    execInChain rest i s = exec i s := by
  unfold execInChain
  split
  · exact absurd rfl (hi _)
  · exact execUnnested_eq_exec hi s

theorem RunsTo.of_runCallChain {t : State} (fuel : Nat) :
    ∀ {s : State}, runCallChain fuel s = .next t → RunsTo s t := by
  induction fuel with
  | zero =>
    intro s h
    cases h
  | succ fuel ih =>
    intro s h
    exact .of_fetchExecute (fun _ hi => execInChain_eq_exec hi s) (fun n hc hn => .nested hc (ih hn)) h

theorem RunsTo.of_execUnnested {s t : State} (h : fetchExecute execUnnested s = .next t) : RunsTo s t :=
  .of_fetchExecute (fun _ hi => execUnnested_eq_exec hi s)
    (fun _ hc hn => .jump (Host.Outcome.next.inj hn ▸ hc)) h

theorem RunsTo.of_execCall {nnn : Word} {s t : State} (hc : CallsInto s (s.enterCall nnn))
    (h : execCall nnn s = .next t) : RunsTo s t := by
  unfold execCall at h
  split at h
  · exact .nested hc (.of_execUnnested h)
  · exact .nested hc (.of_runCallChain memSize h)
  · exact .jump (Host.Outcome.next.inj h ▸ hc)

/-- A Step that answers a next state started without a fault, and answers what `RunsTo` allows. -/
theorem step_cases {s t : State} (h : step s = .next t) : s.fault = none ∧ RunsTo s t := by
  cases hf : s.fault with
  | none =>
    rw [step_of_faultFree hf] at h
    exact ⟨rfl, .of_fetchExecute (fun _ _ => rfl) (fun _ hc hn => .of_execCall hc hn) h⟩
  | some r =>
    rw [step, hf] at h
    cases h

/-! The keypad: no instruction writes it (R31). -/

/-- The next state answered, if there is one, has the keys of `s`. -/
def KeepsKeys (s : State) (o : Result) : Prop := ∀ t, o = .next t → t.keys = s.keys

theorem KeepsKeys.next {s t : State} (h : t.keys = s.keys) : KeepsKeys s (.next t) := by
  rintro _ ⟨⟩
  exact h

theorem State.storeBytes_keys {s t : State} {bs : List Byte} (h : s.storeBytes bs = .ok t) : t.keys = s.keys := by
  unfold State.storeBytes at h
  split at h <;> cases h
  rfl

theorem State.setRegsFrom_keys (s : State) (k : Nat) (bs : List Byte) : (s.setRegsFrom k bs).keys = s.keys := by
  rw [State.setRegsFrom_rest]

/-- One instruction other than CALL: it always answers the same few writes, or answers by a check or a choice, or moves
a block of bytes to or from memory. -/
theorem exec_keepsKeys {i : Instr} (hi : ∀ n, i ≠ .call n) (s : State) : KeepsKeys s (exec i s) := by
  cases i with
  | call n => exact absurd rfl (hi n)
  | cls | jp | seVxKk | sneVxKk | ldVxKk | addVxKk | ldVxVy | orVxVy | andVxVy | xorVxVy | addVxVy | ldI | rnd | ldVxDt
  | ldDtVx | ldStVx | addIVx => exact .next rfl
  | ret | subVxVy | shrVxVy | drw | skp | sknp | ldFVx | ldVxK =>
    simp only [exec, execRet, execSubVxVy, execShrVxVy, execDrw, execSkp, execSknp, execLdFVx, execLdVxK]
    split <;> exact .next rfl
  | ldBVx x =>
    simp only [exec, execLdBVx]
    split
    · exact .next rfl
    · next t ht => exact .next (t.advance_keys.trans (State.storeBytes_keys ht))
  | ldVxMem x =>
    simp only [exec, execLdVxMem]
    split
    · exact .next rfl
    · exact .next (s.setRegsFrom_keys 0 _)

theorem CallsInto.keys_eq {s t : State} (h : CallsInto s t) : t.keys = s.keys := by
  obtain ⟨_, nnn, _, _, rfl⟩ := h
  exact s.enterCall_keys nnn

theorem RunsTo.keys_eq {s t : State} (h : RunsTo s t) : t.keys = s.keys := by
  induction h with
  | faultEntry => exact State.setFault_keys _ _
  | plain _ _ hi he => exact exec_keepsKeys hi _ _ he
  | jump hc => exact hc.keys_eq
  | nested hc _ ih => exact ih.trans hc.keys_eq

/-! The wait of Fx0A (R194, R247). -/

theorem State.pressedKeys_eq_nil {s : State} (h : ∀ k, s.key k = false) : s.pressedKeys = [] :=
  List.eq_nil_iff_forall_not_mem.2 fun k hk => absurd (State.mem_pressedKeys.1 hk) (by simp [h k])

theorem exec_ldVxK_of_no_key {s : State} (x : Reg) (h : ∀ k, s.key k = false) : exec (.ldVxK x) s = .next s := by
  simp only [exec, execLdVxK, State.pressedKeys_eq_nil h]

/-- A state that a Step answers with itself is answered by any number of Steps. -/
theorem run_of_step_self {M : Host.Core} {s : M.State} (h : M.step s = .next s) (n : Nat) : M.run n s = .next s := by
  induction n with
  | zero => rfl
  | succ n ih =>
    rw [Host.Core.run, h]
    exact ih

/-- Settles O52: every Step is a chain of calls and a last move, none of which writes the keypad; and the wait of Fx0A
is a Step that answers its own state. -/
theorem stepNeverChangesTheKeypad : Obligations.StepNeverChangesTheKeypad := by
  refine ⟨fun s t h => (step_cases h).2.keys_eq, fun s w x hfault hf hd hk => run_of_step_self (M := core) ?_⟩
  calc step s = fetchExecute exec s := step_of_faultFree hfault
    _ = exec (.ldVxK x) s := fetchExecute_ok hf hd
    _ = .next s := exec_ldVxK_of_no_key x hk

end Sys2Proof.Machine

/-! PROOFS. The statements about the whole of 30_encoding.md: decoding and encoding are inverse to each other (R71, R74,
R75). -/

namespace Sys2Proof

/-! The formats of R72 put together again from the fields of a word. -/

section FieldsOfAWord
variable {w : Word} {op n : Nat} {kk : Byte}

theorem encodeAddr_fieldNnn (hlead : nibble1 w = BitVec.ofNat 4 op) (ho : op < 16) :
    encodeAddr op (fieldNnn w) = w := by
  rw [bv_eq_iff_toNat _ op ho, nibble1_toNat] at hlead
  apply BitVec.eq_of_toNat_eq
  rw [encodeAddr_toNat _ ho, fieldNnn_toNat]
  omega

theorem encodeXKk_fieldX (hlead : nibble1 w = BitVec.ofNat 4 op) (ho : op < 16) (hkk : fieldKk w = kk) :
    encodeXKk op (fieldX w) kk.toNat = w := by
  rw [bv_eq_iff_toNat _ op ho, nibble1_toNat] at hlead
  apply BitVec.eq_of_toNat_eq
  rw [encodeXKk_toNat _ ho kk.isLt, ← hkk, fieldX_val, fieldKk_toNat]
  omega

theorem encodeXYN_fieldX_fieldY (hlead : nibble1 w = BitVec.ofNat 4 op) (ho : op < 16)
    (hsub : nibble4 w = BitVec.ofNat 4 n) : encodeXYN op (fieldX w) (fieldY w) n = w := by
  rw [bv_eq_iff_toNat _ op ho, nibble1_toNat] at hlead
  have hn := congrArg BitVec.toNat hsub
  rw [nibble4_toNat, BitVec.toNat_ofNat] at hn
  apply BitVec.eq_of_toNat_eq
  rw [encodeXYN_toNat _ _ _ ho, fieldX_val, fieldY_val]
  omega

end FieldsOfAWord

theorem fieldNnn_lt (w : Word) : (fieldNnn w).toNat < 0x1000 := by
  rw [fieldNnn_toNat]
  omega

theorem fieldN_lt (w : Word) : fieldN w < 16 := by
  rw [fieldN_eq]
  omega

/-! No bit of a word is dropped by the decoder. -/

/-- An answer of the decoder that keeps the whole word: an instruction that is well-formed and encodes to it. -/
def AnswerEncodes (w : Word) : Except DecodeError Instr → Prop
  | .ok i => i.wellFormed = true ∧ encode i = w
  | .error _ => True

theorem decodeGroup0_encodes (w : Word) : AnswerEncodes w (decodeGroup0 w) := by
  unfold decodeGroup0
  split_ifs with hcls hret
  · exact ⟨rfl, hcls.symm⟩
  · exact ⟨rfl, hret.symm⟩
  · trivial

theorem decodeGroup8_encodes {w : Word} (h : nibble1 w = 8#4) : AnswerEncodes w (decodeGroup8 w) := by
  unfold decodeGroup8
  split_ifs with h0 h1 h2 h3 h4 h5 h6
  · exact ⟨rfl, encodeXYN_fieldX_fieldY h (by decide) h0⟩
  · exact ⟨rfl, encodeXYN_fieldX_fieldY h (by decide) h1⟩
  · exact ⟨rfl, encodeXYN_fieldX_fieldY h (by decide) h2⟩
  · exact ⟨rfl, encodeXYN_fieldX_fieldY h (by decide) h3⟩
  · exact ⟨rfl, encodeXYN_fieldX_fieldY h (by decide) h4⟩
  · exact ⟨rfl, encodeXYN_fieldX_fieldY h (by decide) h5⟩
  · exact ⟨rfl, encodeXYN_fieldX_fieldY h (by decide) h6⟩
  · trivial

theorem decodeGroupE_encodes {w : Word} (h : nibble1 w = 14#4) : AnswerEncodes w (decodeGroupE w) := by
  unfold decodeGroupE
  split_ifs with h9E hA1
  · exact ⟨rfl, encodeXKk_fieldX h (by decide) h9E⟩
  · exact ⟨rfl, encodeXKk_fieldX h (by decide) hA1⟩
  · trivial

theorem decodeGroupF_encodes {w : Word} (h : nibble1 w = 15#4) : AnswerEncodes w (decodeGroupF w) := by
  unfold decodeGroupF
  split_ifs with h07 h0A h15 h18 h1E h29 h33 h65
  · exact ⟨rfl, encodeXKk_fieldX h (by decide) h07⟩
  · exact ⟨rfl, encodeXKk_fieldX h (by decide) h0A⟩
  · exact ⟨rfl, encodeXKk_fieldX h (by decide) h15⟩
  · exact ⟨rfl, encodeXKk_fieldX h (by decide) h18⟩
  · exact ⟨rfl, encodeXKk_fieldX h (by decide) h1E⟩
  · exact ⟨rfl, encodeXKk_fieldX h (by decide) h29⟩
  · exact ⟨rfl, encodeXKk_fieldX h (by decide) h33⟩
  · exact ⟨rfl, encodeXKk_fieldX h (by decide) h65⟩
  · trivial

theorem decodeWord_encodes (w : Word) : AnswerEncodes w (decodeWord w) := by
  have hnnn := decide_eq_true (fieldNnn_lt w)
  obtain h | h | h | h | h | h | h | h | h | h | h | h | h | h | h | h := nibble1_cases w
  · rw [decodeWord_lead0 h]; exact decodeGroup0_encodes w
  · rw [decodeWord_lead1 h]; exact ⟨hnnn, encodeAddr_fieldNnn h (by decide)⟩
  · rw [decodeWord_lead2 h]; exact ⟨hnnn, encodeAddr_fieldNnn h (by decide)⟩
  · rw [decodeWord_lead3 h]; exact ⟨rfl, encodeXKk_fieldX h (by decide) rfl⟩
  · rw [decodeWord_lead4 h]; exact ⟨rfl, encodeXKk_fieldX h (by decide) rfl⟩
  · rw [decodeWord_lead5 h]; trivial
  · rw [decodeWord_lead6 h]; exact ⟨rfl, encodeXKk_fieldX h (by decide) rfl⟩
  · rw [decodeWord_lead7 h]; exact ⟨rfl, encodeXKk_fieldX h (by decide) rfl⟩
  · rw [decodeWord_lead8 h]; exact decodeGroup8_encodes h
  · rw [decodeWord_lead9 h]; trivial
  · rw [decodeWord_leadA h]; exact ⟨hnnn, encodeAddr_fieldNnn h (by decide)⟩
  · rw [decodeWord_leadB h]; trivial
  · rw [decodeWord_leadC h]; exact ⟨rfl, encodeXKk_fieldX h (by decide) rfl⟩
  · rw [decodeWord_leadD h]
    exact ⟨decide_eq_true (fieldN_lt w), encodeXYN_fieldX_fieldY h (by decide) ((bv_eq_iff_toNat _ _ (fieldN_lt w)).2 rfl)⟩
  · rw [decodeWord_leadE h]; exact decodeGroupE_encodes h
  · rw [decodeWord_leadF h]; exact decodeGroupF_encodes h

theorem wellFormed_of_decodeWord {w : Word} {i : Instr} (h : decodeWord w = .ok i) : i.wellFormed = true := by
  have := decodeWord_encodes w
  rw [h] at this
  exact this.1

theorem encode_of_decodeWord {w : Word} {i : Instr} (h : decodeWord w = .ok i) : encode i = w := by
  have := decodeWord_encodes w
  rw [h] at this
  exact this.2

end Sys2Proof

namespace Sys2Proof.Machine

/-! The encoding lines of the rules (R71, R74) that stand in no proof above. -/

theorem encodedAs_ret : EncodedAs .ret 0x00EE 0xFFFF := ⟨Laws.SelectsItsRow.ret rfl, decodeWord_lead0 rfl⟩

theorem encodedAs_jp {nnn : Word} (hn : nnn.toNat < 0x1000) : EncodedAs (.jp nnn) 0x1000 0xF000 := by
  refine ⟨Laws.SelectsItsRow.jp nnn (decide_eq_true hn), ?_⟩
  rw [encode, decodeWord_lead1 (nibble1_encodeAddr nnn (by decide)), fieldNnn_encodeAddr (by decide) hn]

theorem encodedAs_call {nnn : Word} (hn : nnn.toNat < 0x1000) : EncodedAs (.call nnn) 0x2000 0xF000 := by
  refine ⟨Laws.SelectsItsRow.call nnn (decide_eq_true hn), ?_⟩
  rw [encode, decodeWord_lead2 (nibble1_encodeAddr nnn (by decide)), fieldNnn_encodeAddr (by decide) hn]

theorem encodedAs_subVxVy (x y : Reg) : EncodedAs (.subVxVy x y) 0x8005 0xF00F :=
  encodedAs_of_group8 (Laws.SelectsItsRow.subVxVy x y rfl) rfl (by decide)
    fun w hn hx hy => by simp [decodeGroup8, hn, hx, hy]

theorem encodedAs_shrVxVy (x y : Reg) : EncodedAs (.shrVxVy x y) 0x8006 0xF00F :=
  encodedAs_of_group8 (Laws.SelectsItsRow.shrVxVy x y rfl) rfl (by decide)
    fun w hn hx hy => by simp [decodeGroup8, hn, hx, hy]

theorem encodedAs_rnd (x : Reg) (kk : Byte) : EncodedAs (.rnd x kk) 0xC000 0xF000 := by
  refine ⟨Laws.SelectsItsRow.rnd x kk rfl, ?_⟩
  rw [encode, decodeWord_leadC (nibble1_encodeXKk x (by decide) kk.isLt),
    fieldX_encodeXKk x (by decide) kk.isLt, fieldKk_encodeXKk x kk (by decide)]

theorem encodedAs_drw (x y : Reg) {n : Nat} (hn : n < 16) : EncodedAs (.drw x y n) 0xD000 0xF000 := by
  refine ⟨Laws.SelectsItsRow.drw x y n (decide_eq_true hn), ?_⟩
  rw [encode, decodeWord_leadD (nibble1_encodeXYN x y n (by decide)), fieldX_encodeXYN x y n (by decide),
    fieldY_encodeXYN x y n (by decide), fieldN, nibble4_encodeXYN x y (by decide) hn, BitVec.toNat_ofNat,
    Nat.mod_eq_of_lt hn]

/-- The rows of the E group: it is enough that `decodeGroupE` finds the instruction by the row's sub-opcode kk. -/
theorem encodedAs_of_groupE {i : Instr} {x : Reg} {kk : Byte} {p : Word} (hrow : encode i &&& 0xF0FF = p)
    (he : encode i = encodeXKk 14 x kk.toNat)
    (hsub : ∀ w, fieldKk w = kk → fieldX w = x → decodeGroupE w = .ok i) : EncodedAs i p 0xF0FF := by
  refine ⟨hrow, ?_⟩
  rw [he, decodeWord_leadE (nibble1_encodeXKk x (by decide) kk.isLt)]
  exact hsub _ (fieldKk_encodeXKk x kk (by decide)) (fieldX_encodeXKk x (by decide) kk.isLt)

theorem encodedAs_skp (x : Reg) : EncodedAs (.skp x) 0xE09E 0xF0FF :=
  encodedAs_of_groupE (kk := 0x9E) (Laws.SelectsItsRow.skp x rfl) rfl fun w hkk hx => by simp [decodeGroupE, hkk, hx]

theorem encodedAs_sknp (x : Reg) : EncodedAs (.sknp x) 0xE0A1 0xF0FF :=
  encodedAs_of_groupE (kk := 0xA1) (Laws.SelectsItsRow.sknp x rfl) rfl fun w hkk hx => by simp [decodeGroupE, hkk, hx]

theorem encodedAs_ldVxK (x : Reg) : EncodedAs (.ldVxK x) 0xF00A 0xF0FF :=
  encodedAs_of_groupF (kk := 0x0A) (Laws.SelectsItsRow.ldVxK x rfl) rfl fun w hkk hx => by simp [decodeGroupF, hkk, hx]

theorem encodedAs_addIVx (x : Reg) : EncodedAs (.addIVx x) 0xF01E 0xF0FF :=
  encodedAs_of_groupF (kk := 0x1E) (Laws.SelectsItsRow.addIVx x rfl) rfl fun w hkk hx => by simp [decodeGroupF, hkk, hx]

theorem encodedAs_ldFVx (x : Reg) : EncodedAs (.ldFVx x) 0xF029 0xF0FF :=
  encodedAs_of_groupF (kk := 0x29) (Laws.SelectsItsRow.ldFVx x rfl) rfl fun w hkk hx => by simp [decodeGroupF, hkk, hx]

theorem encodedAs_ldBVx (x : Reg) : EncodedAs (.ldBVx x) 0xF033 0xF0FF :=
  encodedAs_of_groupF (kk := 0x33) (Laws.SelectsItsRow.ldBVx x rfl) rfl fun w hkk hx => by simp [decodeGroupF, hkk, hx]

theorem encodedAs_ldVxMem (x : Reg) : EncodedAs (.ldVxMem x) 0xF065 0xF0FF :=
  encodedAs_of_groupF (kk := 0x65) (Laws.SelectsItsRow.ldVxMem x rfl) rfl fun w hkk hx => by simp [decodeGroupF, hkk, hx]

/-! The obligations. -/

/-- Settles O7: each of the 28 instructions has its encoding line, whose second half is this statement; the bound on nnn
and on n is what well-formedness gives. -/
theorem decodeOfEncodeIsTheInstruction : Obligations.DecodeOfEncodeIsTheInstruction := by
  intro i hi
  cases i with
  | cls => exact encodedAs_cls.2
  | ret => exact encodedAs_ret.2
  | jp nnn => exact (encodedAs_jp (of_decide_eq_true hi)).2
  | call nnn => exact (encodedAs_call (of_decide_eq_true hi)).2
  | seVxKk x kk => exact (encodedAs_seVxKk x kk).2
  | sneVxKk x kk => exact (encodedAs_sneVxKk x kk).2
  | ldVxKk x kk => exact (encodedAs_ldVxKk x kk).2
  | addVxKk x kk => exact (encodedAs_addVxKk x kk).2
  | ldVxVy x y => exact (encodedAs_ldVxVy x y).2
  | orVxVy x y => exact (encodedAs_orVxVy x y).2
  | andVxVy x y => exact (encodedAs_andVxVy x y).2
  | xorVxVy x y => exact (encodedAs_xorVxVy x y).2
  | addVxVy x y => exact (encodedAs_addVxVy x y).2
  | subVxVy x y => exact (encodedAs_subVxVy x y).2
  | shrVxVy x y => exact (encodedAs_shrVxVy x y).2
  | ldI nnn => exact (encodedAs_ldI (of_decide_eq_true hi)).2
  | rnd x kk => exact (encodedAs_rnd x kk).2
  | drw x y n => exact (encodedAs_drw x y (of_decide_eq_true hi)).2
  | skp x => exact (encodedAs_skp x).2
  | sknp x => exact (encodedAs_sknp x).2
  | ldVxDt x => exact (encodedAs_ldVxDt x).2
  | ldVxK x => exact (encodedAs_ldVxK x).2
  | ldDtVx x => exact (encodedAs_ldDtVx x).2
  | ldStVx x => exact (encodedAs_ldStVx x).2
  | addIVx x => exact (encodedAs_addIVx x).2
  | ldFVx x => exact (encodedAs_ldFVx x).2
  | ldBVx x => exact (encodedAs_ldBVx x).2
  | ldVxMem x => exact (encodedAs_ldVxMem x).2

/-- Settles O8: every branch of the decoder keeps the word's leading nibble in the constructor and its other bits in
the operands. -/
theorem encodeOfDecodeIsTheWord : Obligations.EncodeOfDecodeIsTheWord := fun _ _ h =>
  ⟨wellFormed_of_decodeWord h, encode_of_decodeWord h⟩

/-- Settles O10: a word that a row selects decodes to an instruction of that row, and the decoder answers once. -/
theorem noWordSelectsTwoRows : Obligations.NoWordSelectsTwoRows := by
  refine ⟨rfl, fun w r hr r' hr' h h' => ?_⟩
  obtain ⟨i, -, rfl⟩ := List.mem_map.1 hr
  obtain ⟨i', -, rfl⟩ := List.mem_map.1 hr'
  obtain ⟨j, hj, hrow⟩ := decodeWord_of_selects h
  obtain ⟨j', hj', hrow'⟩ := decodeWord_of_selects h'
  obtain rfl : j = j' := Except.ok.inj (hj.symm.trans hj')
  exact hrow.symm.trans hrow'

/-- Settles O11: the laws of the five fields. -/
theorem operandFieldsAreTheWordsBits : Obligations.OperandFieldsAreTheWordsBits := fun w =>
  ⟨fieldX_val w, fieldY_val w, fieldN_eq w, fieldKk_toNat w, fieldNnn_toNat w⟩

/-- Settles O12: the six words run through the decoder. -/
theorem wordsOfTheTableDecode : Obligations.WordsOfTheTableDecode := by
  unfold Obligations.WordsOfTheTableDecode
  decide

end Sys2Proof.Machine

/-! PROOFS. What each instruction other than CALL answers: its fault, when a check of its own fails, or its writes; one
equation per case. The effects and the frames of those writes stand beside them. -/

namespace Sys2Proof.Machine

/-! Control (R100, R101). -/

theorem exec_ret_of_empty {s : State} (h : s.stack = []) : exec .ret s = s.raiseOn .ret .stackUnderflow 0x00EE := by
  simp only [exec, execRet, h, List.getLast?_nil]
  rfl

theorem exec_ret_of_append {s : State} {below : List Word} {r : Word} (h : s.stack = below ++ [r]) :
    exec .ret s = .next ((s.setStack below).setPc (r + 2)) := by
  simp only [exec, execRet, h, List.getLast?_concat, List.dropLast_concat]

theorem exec_jp (nnn : Word) (s : State) : exec (.jp nnn) s = .next (s.setPc nnn) := rfl

/-- The frame of RET: it pops an entry and jumps. -/
theorem State.setStack_setPc_changesOnly (s : State) (l : List Word) (a : Word) :
    ChangesOnly [.pc, .stack] [] s ((s.setStack l).setPc a) := by
  constructor <;> simp

/-- The frame of a jump. -/
theorem State.setPc_changesOnly (s : State) (a : Word) : ChangesOnly [.pc] [] s (s.setPc a) := by
  constructor <;> simp

/-! The flag-writing forms with an operand check, and the random byte (R121, R129 to R131). -/

/-- FLAG_ALIAS_MODE refuses an aliased form under `refuse` and nothing else (R121). -/
theorem State.refusesAlias_eq_true {s : State} {aliased : Bool} :
    s.refusesAlias aliased = true ↔ s.params.flagAliasMode = .refuse ∧ aliased = true := by
  simp only [State.refusesAlias, Bool.and_eq_true, decide_eq_true_eq]

theorem exec_subVxVy_refused {x y : Reg} {s : State} (h : s.refusesAlias (x == regF || y == regF) = true) :
    exec (.subVxVy x y) s = s.raiseOn (.subVxVy x y) .flagAliasRefused (encode (.subVxVy x y)).toNat :=
  if_pos h

theorem exec_subVxVy_runs {x y : Reg} {s : State} (h : ¬s.refusesAlias (x == regF || y == regF) = true) :
    exec (.subVxVy x y) s = .next (s.subThenFlag x y).advance :=
  if_neg h

theorem exec_shrVxVy_refused {x y : Reg} {s : State} (h : s.refusesAlias (x == regF) = true) :
    exec (.shrVxVy x y) s = s.raiseOn (.shrVxVy x y) .flagAliasRefused (encode (.shrVxVy x y)).toNat :=
  if_pos h

theorem exec_shrVxVy_runs {x y : Reg} {s : State} (h : ¬s.refusesAlias (x == regF) = true) :
    exec (.shrVxVy x y) s = .next (s.shrThenFlag x).advance :=
  if_neg h

theorem exec_rnd (x : Reg) (kk : Byte) (s : State) :
    exec (.rnd x kk) s = .next ((s.setReg x (s.randomDraw &&& kk)).countDraw).advance := rfl

/-- The frame of the two instructions that write VF before Vx. -/
theorem State.setReg_regF_setReg_advance_changesOnly (s : State) (x : Reg) (b c : Byte) :
    ChangesOnly [.pc] [x, regF] s ((s.setReg regF b).setReg x c).advance := by
  constructor <;> simp +contextual

/-- The frame of an instruction that draws a free value into Vx. -/
theorem State.setReg_countDraw_advance_changesOnly (s : State) (x : Reg) (b : Byte) :
    ChangesOnly [.pc, .draws] [x] s ((s.setReg x b).countDraw).advance := by
  constructor <;> simp +contextual

theorem State.setReg_countDraw_advance_reg_self (s : State) (x : Reg) (b : Byte) :
    ((s.setReg x b).countDraw).advance.reg x = b := by
  rw [State.advance_reg, State.countDraw_reg, State.setReg_reg, if_pos rfl]

/-! The index register (R152, R153). -/

theorem exec_addIVx (x : Reg) (s : State) :
    exec (.addIVx x) s = .next (s.setIndex (s.index + (s.reg x).setWidth 16)).advance := rfl

theorem exec_ldFVx_of_ge {x : Reg} {s : State} (h : 16 ≤ (s.reg x).toNat) :
    exec (.ldFVx x) s = s.raiseOn (.ldFVx x) .glyphDigitOutOfRange (s.reg x).toNat := by
  simp only [exec, execLdFVx, hexIndex_of_ge h]

theorem exec_ldFVx_of_lt {x : Reg} {s : State} (h : (s.reg x).toNat < 16) :
    exec (.ldFVx x) s = .next (s.setIndex (glyphAddress ⟨(s.reg x).toNat, h⟩)).advance := by
  simp only [exec, execLdFVx, hexIndex_of_lt h]

/-! The keypad (R190 to R192, R194). -/

theorem exec_skp_of_ge {x : Reg} {s : State} (h : 16 ≤ (s.reg x).toNat) :
    exec (.skp x) s = s.raiseOn (.skp x) .keyIndexOutOfRange (s.reg x).toNat := by
  simp only [exec, execSkp, hexIndex_of_ge h]

theorem exec_skp_of_lt {x : Reg} {s : State} (h : (s.reg x).toNat < 16) :
    exec (.skp x) s = .next (s.skipIf (s.key ⟨(s.reg x).toNat, h⟩)) := by
  simp only [exec, execSkp, hexIndex_of_lt h]

theorem exec_sknp_of_ge {x : Reg} {s : State} (h : 16 ≤ (s.reg x).toNat) :
    exec (.sknp x) s = s.raiseOn (.sknp x) .keyIndexOutOfRange (s.reg x).toNat := by
  simp only [exec, execSknp, hexIndex_of_ge h]

theorem exec_sknp_of_lt {x : Reg} {s : State} (h : (s.reg x).toNat < 16) :
    exec (.sknp x) s = .next (s.skipIf (!s.key ⟨(s.reg x).toNat, h⟩)) := by
  simp only [exec, execSknp, hexIndex_of_lt h]

theorem exec_ldVxK_of_pressed {x : Reg} {s : State} {k : Key} {ks : List Key} (h : s.pressedKeys = k :: ks) :
    exec (.ldVxK x) s = .next
      ((s.setReg x (BitVec.ofNat 8 (chooseKey k ks (Config.keyChoice s.draws)).val)).countDraw).advance := by
  simp only [exec, execLdVxK, h]

/-! Blocks of memory (R154, R155, R170, R172). -/

theorem bcdDigits_length (b : Byte) : (bcdDigits b).length = 3 := rfl

theorem exec_ldBVx_outside {x : Reg} {s : State} (h : memSize < s.index.toNat + 3) :
    exec (.ldBVx x) s = s.raiseOn (.ldBVx x) .memoryOutOfRange (max s.index.toNat memSize) := by
  simp only [exec, execLdBVx, State.storeBytes_error (bs := bcdDigits (s.reg x)) (List.cons_ne_nil _ _) h]

theorem exec_ldBVx_inside {x : Reg} {s : State} (h : s.index.toNat + 3 ≤ memSize) :
    exec (.ldBVx x) s =
      .next (s.setMem (s.mem.writeBytes s.index.toNat (bcdDigits (s.reg x)))).advance := by
  simp only [exec, execLdBVx, State.storeBytes_ok (bs := bcdDigits (s.reg x)) h]

theorem exec_ldVxMem_outside {x : Reg} {s : State} (h : memSize < s.index.toNat + (x.val + 1)) :
    exec (.ldVxMem x) s = s.raiseOn (.ldVxMem x) .memoryOutOfRange (max s.index.toNat memSize) := by
  simp only [exec, execLdVxMem, State.loadBytes_error (Nat.succ_pos x.val) h]

theorem exec_ldVxMem_inside {x : Reg} {s : State} (h : s.index.toNat + (x.val + 1) ≤ memSize) :
    exec (.ldVxMem x) s = .next (s.setRegsFrom 0 (s.spriteBytes (x.val + 1))).advance := by
  simp only [exec, execLdVxMem, State.loadBytes_ok (.inr h)]
  rfl

theorem exec_drw_outside {x y : Reg} {n : Nat} {s : State} (hn : 0 < n) (h : memSize < s.index.toNat + n) :
    exec (.drw x y n) s = s.raiseOn (.drw x y n) .memoryOutOfRange (max s.index.toNat memSize) := by
  simp only [exec, execDrw, State.loadBytes_error hn h]

theorem exec_drw_inside {x y : Reg} {n : Nat} {s : State} (h : n = 0 ∨ s.index.toNat + n ≤ memSize) :
    exec (.drw x y n) s = .next (s.drawSprite x y (s.spriteBytes n)).advance := by
  simp only [exec, execDrw, State.loadBytes_ok h]
  rfl

/-- The frame of a store. -/
theorem State.setMem_advance_changesOnly (s : State) (m : Memory) :
    ChangesOnly [.pc, .mem] [] s (s.setMem m).advance := by
  constructor <;> simp

/-- Bytes loaded into V0..Vx: what each register holds afterwards (R155). -/
theorem State.setRegsFrom_spriteBytes_reg (s : State) (x r : Reg) :
    (s.setRegsFrom 0 (s.spriteBytes (x.val + 1))).reg r =
      if r ≤ x then s.mem.read (s.index.toNat + r.val) else s.reg r := by
  have hlen : (s.spriteBytes (x.val + 1)).length = x.val + 1 := by simp [State.spriteBytes]
  rw [State.setRegsFrom_reg _ s 0 r (by omega)]
  by_cases hr : r.val ≤ x.val
  · rw [dif_pos (by omega), if_pos (Fin.le_def.2 hr)]
    simp [State.spriteBytes]
  · rw [dif_neg (by omega), if_neg (mt Fin.le_def.1 hr)]

/-- The frame of a load of V0..Vx. -/
theorem State.setRegsFrom_spriteBytes_advance_changesOnly (s : State) (x : Reg) :
    ChangesOnly [.pc] ((List.finRange 16).filter (fun k => k ≤ x)) s
      (s.setRegsFrom 0 (s.spriteBytes (x.val + 1))).advance := by
  have hreg := s.setRegsFrom_spriteBytes_reg x
  obtain ⟨v, hv⟩ : ∃ v, s.setRegsFrom 0 (s.spriteBytes (x.val + 1)) = { s with v := v } :=
    ⟨_, State.setRegsFrom_rest _ s 0⟩
  rw [hv] at hreg ⊢
  refine ⟨fun r hr => ?_, fun _ => rfl, fun h => absurd (.head _) h, fun _ => rfl, fun _ => rfl, fun _ => rfl,
    fun _ _ _ => rfl, fun _ _ => rfl, fun _ _ => rfl, fun _ => rfl, fun _ => rfl, fun _ => rfl⟩
  have hrx : ¬r ≤ x := by simpa using hr
  rw [State.advance_reg, hreg, if_neg hrx]

/-- The frame of a draw: VF is the one register it writes. -/
theorem State.drawSprite_advance_changesOnly (s : State) (x y : Reg) (bs : List Byte) :
    ChangesOnly [.pc, .fb] [regF] s (s.drawSprite x y bs).advance := by
  constructor <;> simp +contextual [State.drawSprite]

end Sys2Proof.Machine

/-! PROOFS. What an instruction other than CALL can do, said once for all of them: it raises a fault of its own, or it
completes within its footprint. What every Step keeps follows from that (R26, R27, R50, R212). -/

namespace Sys2Proof.Machine

/-! The footprint of an instruction, from its rule. A call is left out: it has its own laws below. -/

/-- The parts of the state, other than registers, that an instruction's own rule writes. -/
def writtenParts : Instr → List Part
  | .cls => [.pc, .fb]
  | .drw _ _ _ => [.pc, .fb]
  | .ret => [.pc, .stack]
  | .call _ => [.pc, .stack]
  | .rnd _ _ => [.pc, .draws]
  | .ldVxK _ => [.pc, .draws]
  | .ldI _ => [.pc, .index]
  | .addIVx _ => [.pc, .index]
  | .ldFVx _ => [.pc, .index]
  | .ldDtVx _ => [.pc, .dt]
  | .ldStVx _ => [.pc, .st]
  | .ldBVx _ => [.pc, .mem]
  | _ => [.pc]

/-- The registers that an instruction's own rule writes (R21: VF among them only where the rule says so). -/
def writtenRegs : Instr → List Reg
  | .ldVxKk x _ => [x]
  | .addVxKk x _ => [x]
  | .ldVxVy x _ => [x]
  | .orVxVy x _ => [x]
  | .andVxVy x _ => [x]
  | .xorVxVy x _ => [x]
  | .addVxVy x _ => [x, regF]
  | .subVxVy x _ => [x, regF]
  | .shrVxVy x _ => [x, regF]
  | .rnd x _ => [x]
  | .drw _ _ _ => [regF]
  | .ldVxDt x => [x]
  | .ldVxK x => [x]
  | .ldVxMem x => (List.finRange 16).filter (fun k => k ≤ x)
  | _ => []

/-- Where an instruction's own rule can leave pc. -/
def nextPcs : Instr → State → List Word
  | .ret, s => s.stack.map (· + 2)
  | .jp nnn, _ => [nnn]
  | .ldVxK _, s => [s.pc + 2, s.pc]
  | .seVxKk _ _, s => [s.pc + 2, s.pc + 4]
  | .sneVxKk _ _, s => [s.pc + 2, s.pc + 4]
  | .skp _, s => [s.pc + 2, s.pc + 4]
  | .sknp _, s => [s.pc + 2, s.pc + 4]
  | _, s => [s.pc + 2]

/-- The instruction completes: nothing changes outside its footprint, pc goes where its rule says, and the stack at most
loses entries from its top. -/
structure Completes (i : Instr) (s t : State) : Prop
    extends ChangesOnly (writtenParts i) (writtenRegs i) s t where
  mem_eq : Part.mem ∉ writtenParts i → t.mem = s.mem
  pc_mem : t.pc ∈ nextPcs i s
  stack_sublist : t.stack.Sublist s.stack

theorem skipIf_pc_mem (s : State) (c : Bool) : (s.skipIf c).pc ∈ [s.pc + 2, s.pc + 4] := by
  cases c <;> simp

/-- What an instruction answers from a state: the entry of a fault that it names itself in, or its completion. -/
def Answers (i : Instr) (s : State) : Prop :=
  (∃ code info, exec i s = s.raiseOn i code info) ∨ ∃ t, exec i s = .next t ∧ Completes i s t

/-- An instruction whose last act is the ordinary advance of pc, and which leaves the stack. -/
theorem Answers.of_advance {i : Instr} {s u : State} (he : exec i s = .next u.advance)
    (hframe : ChangesOnly (writtenParts i) (writtenRegs i) s u.advance)
    (hmem : Part.mem ∉ writtenParts i → u.mem = s.mem := by exact fun _ => rfl)
    (hpc : u.pc + 2 ∈ nextPcs i s := by exact .head _) (hstack : u.stack = s.stack := by rfl) : Answers i s :=
  .inr ⟨_, he, hframe, hmem, hpc, hstack ▸ .refl _⟩

/-- An instruction that skips on a condition. -/
theorem Answers.of_skipIf {i : Instr} {s : State} {c : Bool} (he : exec i s = .next (s.skipIf c))
    (hframe : ChangesOnly (writtenParts i) (writtenRegs i) s (s.skipIf c))
    (hpc : nextPcs i s = [s.pc + 2, s.pc + 4]) : Answers i s :=
  .inr ⟨_, he, hframe, fun _ => rfl, hpc ▸ skipIf_pc_mem s c, .refl _⟩

/-- Every instruction but CALL answers a next state, by its fault or by completing (R212, R213). -/
theorem exec_answers {i : Instr} (hi : ∀ n, i ≠ .call n) (s : State) : Answers i s := by
  cases i with
  | call n => exact absurd rfl (hi n)
  | cls => exact .of_advance (exec_cls s) (s.setFb_advance_changesOnly _)
  | jp nnn => exact .inr ⟨_, exec_jp nnn s, s.setPc_changesOnly nnn, fun _ => rfl, .head _, .refl _⟩
  | ret =>
    obtain h | ⟨below, r, h⟩ := s.stack.eq_nil_or_concat'
    · exact .inl ⟨_, _, exec_ret_of_empty h⟩
    · refine .inr ⟨_, exec_ret_of_append h, s.setStack_setPc_changesOnly below _, fun _ => rfl, ?_, ?_⟩
      · simp [nextPcs, h]
      · exact h ▸ List.sublist_append_left below [r]
  | seVxKk x kk => exact .of_skipIf (exec_seVxKk x kk s) (s.skipIf_changesOnly_pc _) rfl
  | sneVxKk x kk => exact .of_skipIf (exec_sneVxKk x kk s) (s.skipIf_changesOnly_pc _) rfl
  | ldVxKk x kk =>
    exact .of_advance (exec_ldVxKk x kk s) (s.setReg_advance_changesOnly x _)
  | addVxKk x kk =>
    exact .of_advance (exec_addVxKk x kk s) (s.setReg_advance_changesOnly x _)
  | ldVxVy x y =>
    exact .of_advance (exec_ldVxVy x y s) (s.setReg_advance_changesOnly x _)
  | orVxVy x y =>
    exact .of_advance (exec_orVxVy x y s) (s.setReg_advance_changesOnly x _)
  | andVxVy x y =>
    exact .of_advance (exec_andVxVy x y s) (s.setReg_advance_changesOnly x _)
  | xorVxVy x y =>
    exact .of_advance (exec_xorVxVy x y s) (s.setReg_advance_changesOnly x _)
  | addVxVy x y =>
    exact .of_advance (exec_addVxVy x y s) (s.setReg_setReg_advance_changesOnly x regF _ _)
  | subVxVy x y =>
    by_cases h : s.refusesAlias (x == regF || y == regF) = true
    · exact .inl ⟨_, _, exec_subVxVy_refused h⟩
    · exact .of_advance (exec_subVxVy_runs h) (s.setReg_regF_setReg_advance_changesOnly x _ _)
  | shrVxVy x y =>
    by_cases h : s.refusesAlias (x == regF) = true
    · exact .inl ⟨_, _, exec_shrVxVy_refused h⟩
    · exact .of_advance (exec_shrVxVy_runs h) (s.setReg_regF_setReg_advance_changesOnly x _ _)
  | rnd x kk =>
    exact .of_advance (exec_rnd x kk s) (s.setReg_countDraw_advance_changesOnly x _)
  | ldI nnn => exact .of_advance (exec_ldI nnn s) (s.setIndex_advance_changesOnly _)
  | addIVx x => exact .of_advance (exec_addIVx x s) (s.setIndex_advance_changesOnly _)
  | ldFVx x =>
    obtain h | h := lt_or_ge (s.reg x).toNat 16
    · exact .of_advance (exec_ldFVx_of_lt h) (s.setIndex_advance_changesOnly _)
    · exact .inl ⟨_, _, exec_ldFVx_of_ge h⟩
  | skp x =>
    obtain h | h := lt_or_ge (s.reg x).toNat 16
    · exact .of_skipIf (exec_skp_of_lt h) (s.skipIf_changesOnly_pc _) rfl
    · exact .inl ⟨_, _, exec_skp_of_ge h⟩
  | sknp x =>
    obtain h | h := lt_or_ge (s.reg x).toNat 16
    · exact .of_skipIf (exec_sknp_of_lt h) (s.skipIf_changesOnly_pc _) rfl
    · exact .inl ⟨_, _, exec_sknp_of_ge h⟩
  | ldVxDt x => exact .of_advance (exec_ldVxDt x s) (s.setReg_advance_changesOnly x _)
  | ldDtVx x => exact .of_advance (exec_ldDtVx x s) (s.setDt_advance_changesOnly _)
  | ldStVx x => exact .of_advance (exec_ldStVx x s) (s.setSt_advance_changesOnly _)
  | ldVxK x =>
    cases h : s.pressedKeys with
    | nil =>
      refine .inr ⟨s, by simp only [exec, execLdVxK, h], ?_, fun _ => rfl, .tail _ (.head _), .refl _⟩
      constructor <;> intros <;> rfl
    | cons k ks =>
      exact .of_advance (exec_ldVxK_of_pressed h) (s.setReg_countDraw_advance_changesOnly x _)
  | ldBVx x =>
    obtain h | h := le_or_gt (s.index.toNat + 3) memSize
    · exact .of_advance (exec_ldBVx_inside h) (s.setMem_advance_changesOnly _) fun hm => absurd (.tail _ (.head _)) hm
    · exact .inl ⟨_, _, exec_ldBVx_outside h⟩
  | ldVxMem x =>
    obtain h | h := le_or_gt (s.index.toNat + (x.val + 1)) memSize
    · have hrest := State.setRegsFrom_rest (s.spriteBytes (x.val + 1)) s 0
      refine .of_advance (exec_ldVxMem_inside h) (s.setRegsFrom_spriteBytes_advance_changesOnly x) (fun _ => ?_) ?_ ?_
      · rw [hrest]
      · rw [hrest]; exact .head _
      · rw [hrest]
    · exact .inl ⟨_, _, exec_ldVxMem_outside h⟩
  | drw x y n =>
    by_cases h : n = 0 ∨ s.index.toNat + n ≤ memSize
    · exact .of_advance (exec_drw_inside h) (s.drawSprite_advance_changesOnly x y _)
    · exact .inl ⟨_, _, exec_drw_outside (by omega) (by omega)⟩

/-- The same as an inversion of an answered state. -/
theorem exec_cases {i : Instr} {s t : State} (hi : ∀ n, i ≠ .call n) (h : exec i s = .next t) :
    (∃ code info, t = s.withFault code s.pc (some (encode i)) info) ∨ Completes i s t := by
  obtain ⟨code, info, hf⟩ | ⟨u, hu, hc⟩ := exec_answers hi s
  · exact .inl ⟨code, info, (Host.Outcome.next.inj (hf.symm.trans h)).symm⟩
  · obtain rfl := Host.Outcome.next.inj (hu.symm.trans h)
    exact .inr hc

theorem exec_answers_next {i : Instr} (hi : ∀ n, i ≠ .call n) (s : State) : ∃ t, exec i s = .next t := by
  obtain ⟨code, info, hf⟩ | ⟨t, ht, -⟩ := exec_answers hi s
  · exact ⟨_, hf⟩
  · exact ⟨t, ht⟩

/-- A frame that holds the framebuffer and the keys read by read holds them as data. -/
theorem ChangesOnly.fb_eq {parts : List Part} {regs : List Reg} {s t : State} (h : ChangesOnly parts regs s t)
    (hp : Part.fb ∉ parts) : t.fb = s.fb :=
  Vector.ext fun px hx => Vector.ext fun py hy => h.fb hp ⟨px, hx⟩ ⟨py, hy⟩

theorem ChangesOnly.keys_eq {parts : List Part} {regs : List Reg} {s t : State} (h : ChangesOnly parts regs s t)
    (hp : Part.keys ∉ parts) : t.keys = s.keys :=
  Vector.ext fun k hk => h.keys hp ⟨k, hk⟩

/-! The writers of each part, read off the footprints. The fault field is written by a fault entry only, and the keypad
and the parameters by none. -/

section Writers
variable {i : Instr}

theorem index_mem_writtenParts :
    Part.index ∈ writtenParts i ↔ (∃ n, i = .ldI n) ∨ (∃ x, i = .addIVx x) ∨ ∃ x, i = .ldFVx x := by
  cases i <;> simp [writtenParts]

theorem stack_mem_writtenParts : Part.stack ∈ writtenParts i ↔ i = .ret ∨ ∃ n, i = .call n := by
  cases i <;> simp [writtenParts]

theorem dt_mem_writtenParts : Part.dt ∈ writtenParts i ↔ ∃ x, i = .ldDtVx x := by
  cases i <;> simp [writtenParts]

theorem st_mem_writtenParts : Part.st ∈ writtenParts i ↔ ∃ x, i = .ldStVx x := by
  cases i <;> simp [writtenParts]

theorem fb_mem_writtenParts : Part.fb ∈ writtenParts i ↔ i = .cls ∨ ∃ x y n, i = .drw x y n := by
  cases i <;> simp [writtenParts]

theorem mem_mem_writtenParts : Part.mem ∈ writtenParts i ↔ ∃ x, i = .ldBVx x := by
  cases i <;> simp [writtenParts]

end Writers

theorem keys_not_written (i : Instr) : Part.keys ∉ writtenParts i := by
  cases i <;> simp [writtenParts]

theorem fault_not_written (i : Instr) : Part.fault ∉ writtenParts i := by
  cases i <;> simp [writtenParts]

theorem params_not_written (i : Instr) : Part.params ∉ writtenParts i := by
  cases i <;> simp [writtenParts]

theorem exec_params {i : Instr} {s t : State} (hi : ∀ n, i ≠ .call n) (h : exec i s = .next t) :
    t.params = s.params := by
  obtain ⟨code, info, rfl⟩ | hc := exec_cases hi h
  · rfl
  · exact hc.params (params_not_written i)

/-! The invariant (R26, R27, R50). -/

theorem exec_mem_wf {i : Instr} {s t : State} (hi : ∀ n, i ≠ .call n) (h : exec i s = .next t)
    (hm : s.mem.wf = true) : t.mem.wf = true := by
  obtain ⟨code, info, rfl⟩ | hc := exec_cases hi h
  · exact hm
  · by_cases hw : Part.mem ∈ writtenParts i
    · obtain ⟨x, rfl⟩ := mem_mem_writtenParts.1 hw
      obtain hin | hout := le_or_gt (s.index.toNat + 3) memSize
      · obtain rfl := Host.Outcome.next.inj ((exec_ldBVx_inside hin).symm.trans h)
        exact Memory.wf_writeBytes _ _ _ hm hin
      · obtain rfl := Host.Outcome.next.inj ((exec_ldBVx_outside hout).symm.trans h)
        exact hm
    · exact hc.mem_eq hw ▸ hm

/-- From a pc whose word can be fetched, a well-formed instruction leaves pc below 4096 (R26). -/
theorem nextPcs_lt {i : Instr} {s : State} {a : Word} (hwf : i.wellFormed = true) (hinv : s.Inv)
    (hpc : s.pc.toNat + 1 < memSize) (ha : a ∈ nextPcs i s) : a.toNat < 4096 := by
  have hadd : ∀ (b : Word) (k : Nat), b.toNat + 1 < 4092 → k ≤ 4 → (b + BitVec.ofNat 16 k).toNat < 4096 := by
    intro b k hb hk
    rw [BitVec.toNat_add, BitVec.toNat_ofNat]
    omega
  have h2 := hadd s.pc 2 hpc (by decide)
  have h4 := hadd s.pc 4 hpc (by decide)
  cases i with
  | jp nnn =>
    obtain rfl := List.mem_singleton.1 ha
    exact of_decide_eq_true hwf
  | ret =>
    obtain ⟨r, hr, rfl⟩ := List.mem_map.1 ha
    exact hadd r 2 (hinv.2.2 r hr) (by decide)
  | seVxKk | sneVxKk | skp | sknp =>
    simp only [nextPcs, List.mem_cons, List.not_mem_nil, or_false] at ha
    obtain rfl | rfl := ha
    · exact h2
    · exact h4
  | ldVxK x =>
    simp only [nextPcs, List.mem_cons, List.not_mem_nil, or_false] at ha
    obtain rfl | rfl := ha
    · exact h2
    · exact hinv.2.1
  | _ => exact List.mem_singleton.1 ha ▸ h2

theorem exec_inv {i : Instr} {s t : State} (hi : ∀ n, i ≠ .call n) (hwf : i.wellFormed = true)
    (hpc : s.pc.toNat + 1 < memSize) (hinv : s.Inv) (h : exec i s = .next t) : t.Inv := by
  have hmem := exec_mem_wf hi h hinv.1
  obtain ⟨code, info, rfl⟩ | hc := exec_cases hi h
  · exact hinv
  · exact ⟨hmem, nextPcs_lt hwf hinv hpc hc.pc_mem, fun r hr => hinv.2.2 r (hc.stack_sublist.subset hr)⟩

/-- A call pushes its own address, which was fetched from, and its target is a 12-bit address. -/
theorem CallsInto.inv {s t : State} (hc : CallsInto s t) (hinv : s.Inv) : t.Inv := by
  obtain ⟨w, nnn, hf, hd, rfl⟩ := hc
  obtain ⟨hmem, -, hstack⟩ := hinv
  have hn : nnn.toNat < 0x1000 := of_decide_eq_true (wellFormed_of_decodeWord hd)
  refine ⟨hmem, hn, fun r hr => ?_⟩
  rw [State.enterCall_stack, List.mem_append, List.mem_singleton] at hr
  obtain hr | rfl := hr
  · exact hstack r hr
  · exact (State.fetch_eq_some.1 hf).1

theorem RunsTo.inv {s t : State} (h : RunsTo s t) (hinv : s.Inv) : t.Inv := by
  induction h with
  | faultEntry => exact hinv
  | plain hf hd hi he => exact exec_inv hi (wellFormed_of_decodeWord hd) (State.fetch_eq_some.1 hf).1 hinv he
  | jump hc => exact hc.inv hinv
  | nested hc _ ih => exact ih (hc.inv hinv)

/-- Settles O57: a Step is a chain of calls and a last move. A call pushes an address that was fetched from; the last
move is a fault entry, or an instruction at a pc of at most 4090 that completes within its footprint. -/
theorem stepKeepsTheInvariant : Obligations.StepKeepsTheInvariant := fun _ _ hinv h =>
  (step_cases h).2.inv hinv

end Sys2Proof.Machine

/-! PROOFS. The statements about one instruction, and about all but CALL: each takes the instruction's equation and the
frame of its writes. -/

namespace Sys2Proof.Machine

/-! Step and the fault field (R55, R76, R78, R79, R212, R215). -/

/-- Settles O13: the two bytes are the fetched word, and what decodes is well-formed. -/
theorem stepRunsTheDecodedInstruction : Obligations.StepRunsTheDecodedInstruction := by
  intro s hi lo i hfault hhi hlo hdec
  have hw : decodeWord (wordOfBytes hi lo) = .ok i := by
    simp only [decode] at hdec
    split at hdec
    · next hj => cases hdec; exact hj
    · cases hdec
  refine ⟨wellFormed_of_decodeWord hw, ?_⟩
  rw [step_of_faultFree hfault, fetchExecute_ok (State.fetch_of_byteAt hhi hlo) hw]

/-- Settles O14: the two ways in which fetch-and-run reaches no instruction. -/
theorem stepFaultsOnIllegalWordsAndUnfetchablePc : Obligations.StepFaultsOnIllegalWordsAndUnfetchablePc := by
  intro s hfault
  refine ⟨fun hi lo hhi hlo hill => ?_, fun hpc => ?_⟩
  · rw [step_of_faultFree hfault, fetchExecute_illegal (State.fetch_of_byteAt hhi hlo) hill]
    rfl
  · rw [step_of_faultFree hfault, fetchExecute_unfetchable (State.fetch_eq_none.2 hpc)]
    rfl

theorem step_of_fault {s : State} {r : FaultRecord} (h : s.fault = some r) : step s = .fault (.halted r) := by
  simp only [step, h]

/-- Settles O15: Step tests the fault field first. -/
theorem aFaultedCoreTakesNoStep : Obligations.AFaultedCoreTakesNoStep :=
  ⟨fun _ _ h => ⟨step_of_fault h, h⟩, rfl, rfl, rfl, rfl, rfl, rfl, rfl⟩

/-! The faults of the operand checks and of the bounds check: the equation of the failing case, whose fault entry
(R212) writes the record only. -/

/-- Settles O16: the four checks that fail on a value of their operand. -/
theorem operandChecksRaiseTheirFault : Obligations.OperandChecksRaiseTheirFault := fun _ =>
  ⟨exec_ret_of_empty, fun _ h => ⟨exec_ldFVx_of_ge h, exec_skp_of_ge h, exec_sknp_of_ge h⟩⟩

/-- Settles O17: the bounds check of the block accesses finds the lowest address out of range before any write. -/
theorem accessesOutOfRangeRaiseAtTheLowestAddress : Obligations.AccessesOutOfRangeRaiseAtTheLowestAddress :=
  fun _ _ _ _ => ⟨exec_ldBVx_outside, exec_ldVxMem_outside, exec_drw_outside⟩

/-- Settles O25: under `refuse` the aliased forms take the refusing branch. -/
theorem refusedAliasFormsFault : Obligations.RefusedAliasFormsFault := by
  intro x y s hmode
  refine ⟨fun hxy => exec_subVxVy_refused ?_, fun hx => exec_shrVxVy_refused ?_⟩
  · exact State.refusesAlias_eq_true.2 ⟨hmode, by simpa using hxy⟩
  · exact State.refusesAlias_eq_true.2 ⟨hmode, by simpa using hx⟩

/-! The flag-writing subtraction and shift where they run, and the random byte (R121, R129 to R131). -/

theorem State.refusesAlias_of_sequential_or {s : State} {aliased : Bool}
    (h : s.params.flagAliasMode = .sequential ∨ aliased = false) : ¬s.refusesAlias aliased = true := by
  rw [State.refusesAlias_eq_true]
  rintro ⟨hmode, ha⟩
  simp [hmode, ha] at h

theorem notBorrowFlag_eq (a b : Byte) : notBorrowFlag a b = if b.toNat > a.toNat then 0 else 1 := by
  by_cases h : b.toNat > a.toNat <;> simp [notBorrowFlag, flagByte, h]

theorem shiftedOutFlag_toNat (a : Byte) : (shiftedOutFlag a).toNat = a.toNat % 2 := by
  rw [shiftedOutFlag, BitVec.toNat_and]
  exact Nat.and_one_is_mod _

theorem shiftedOutFlag_eq_zero_or_one (a : Byte) : shiftedOutFlag a = 0 ∨ shiftedOutFlag a = 1 :=
  (Nat.mod_two_eq_zero_or_one a.toNat).imp
    (fun h => BitVec.eq_of_toNat_eq ((shiftedOutFlag_toNat a).trans h))
    (fun h => BitVec.eq_of_toNat_eq ((shiftedOutFlag_toNat a).trans h))

/-- The register 8xy5 writes: the difference of the operands as they stand after the write of VF (R129). -/
theorem State.subThenFlag_reg_self (s : State) (x y : Reg) :
    (s.subThenFlag x y).reg x =
      (if x = regF then notBorrowFlag (s.reg x) (s.reg y) else s.reg x) -
        (if y = regF then notBorrowFlag (s.reg x) (s.reg y) else s.reg y) := by
  simp only [State.subThenFlag, State.setReg_reg, if_pos]

/-- VF after 8xy5, unless the difference overwrites it. -/
theorem State.subThenFlag_regF (s : State) {x : Reg} (y : Reg) (hx : x ≠ regF) :
    (s.subThenFlag x y).reg regF = notBorrowFlag (s.reg x) (s.reg y) := by
  simp only [State.subThenFlag, State.setReg_reg, if_neg hx.symm, if_pos]

/-- Vx and VF after 8xy6 (R130). -/
theorem State.shrThenFlag_reg_self (s : State) {x : Reg} (hx : x ≠ regF) :
    (s.shrThenFlag x).reg x = s.reg x >>> 1 := by
  simp only [State.shrThenFlag, State.setReg_reg, if_neg hx, if_pos]

theorem State.shrThenFlag_regF (s : State) {x : Reg} (hx : x ≠ regF) :
    (s.shrThenFlag x).reg regF = shiftedOutFlag (s.reg x) := by
  simp only [State.shrThenFlag, State.setReg_reg, if_neg hx.symm, if_pos]

/-- With x = F the flag itself is shifted, and a flag has no bit above bit 0. -/
theorem State.shrThenFlag_regF_of_alias (s : State) : (s.shrThenFlag regF).reg regF = 0 := by
  apply BitVec.eq_of_toNat_eq
  simp only [State.shrThenFlag, State.setReg_reg, if_pos, BitVec.toNat_ushiftRight, Nat.shiftRight_eq_div_pow,
    shiftedOutFlag_toNat]
  exact Nat.div_eq_of_lt (Nat.mod_lt _ (by decide))

/-- Settles O23: the form is not refused, so VF is written first, and Vx from the registers after that write. -/
theorem subtractSetsNotBorrowThenVx : Obligations.SubtractSetsNotBorrowThenVx := by
  intro x y s hmode
  refine ⟨encodedAs_subVxVy x y, _, exec_subVxVy_runs (State.refusesAlias_of_sequential_or ?_), ?_, fun hx => ?_,
    State.advance_pc _, s.setReg_regF_setReg_advance_changesOnly x _ _⟩
  · exact hmode.imp_right fun ⟨hx, hy⟩ => by simp [hx, hy]
  · rw [State.advance_reg, State.subThenFlag_reg_self, notBorrowFlag_eq, BitVec.toNat_sub]
    congr 1
    omega
  · rw [State.advance_reg, s.subThenFlag_regF y hx, notBorrowFlag_eq]

/-- Settles O24: the form is not refused, so VF takes bit 0 first, and Vx is then shifted, VF itself when x = F. -/
theorem shiftRightPutsTheLowBitInVf : Obligations.ShiftRightPutsTheLowBitInVf := by
  intro x y s hmode
  refine ⟨encodedAs_shrVxVy x y, _, exec_shrVxVy_runs (State.refusesAlias_of_sequential_or ?_),
    fun hx => ⟨?_, ?_⟩, fun hx => ?_, State.advance_pc _, s.setReg_regF_setReg_advance_changesOnly x _ _⟩
  · exact hmode.imp_right fun hx => by simp [hx]
  · rw [State.advance_reg, s.shrThenFlag_reg_self hx, BitVec.toNat_ushiftRight, Nat.shiftRight_eq_div_pow]
  · rw [State.advance_reg, s.shrThenFlag_regF hx, shiftedOutFlag_toNat]
  · rw [State.advance_reg, hx, s.shrThenFlag_regF_of_alias]

/-- Settles O26: the byte written is the next free byte in RAND_RANGE under the mask kk; a byte of the range is its own
raw byte. -/
theorem randomByteIsInRangeAndMasked : Obligations.RandomByteIsInRangeAndMasked := by
  refine ⟨fun x kk s => ⟨encodedAs_rnd x kk, _, exec_rnd x kk s, randInRange_le _ _,
    s.setReg_countDraw_advance_reg_self x _, ?_, rfl, State.advance_pc _,
    s.setReg_countDraw_advance_changesOnly x _⟩, fun last r h => ⟨r, randInRange_self h⟩⟩
  rw [State.setReg_countDraw_advance_reg_self, BitVec.and_assoc, BitVec.and_not_self]
  exact BitVec.and_zero

/-! Control (R100, R101). -/

/-- Settles O27: the equation of RET on a stack with an entry on top. -/
theorem returnPopsAndContinuesAfterTheCall : Obligations.ReturnPopsAndContinuesAfterTheCall :=
  ⟨encodedAs_ret, fun s _ _ h => ⟨_, exec_ret_of_append h, rfl, rfl, s.setStack_setPc_changesOnly _ _⟩⟩

/-- Settles O28: a jump is one write of pc. -/
theorem jumpSetsPc : Obligations.JumpSetsPc := fun nnn s hn =>
  ⟨encodedAs_jp hn, _, exec_jp nnn s, s.setPc_pc nnn, s.setPc_changesOnly nnn⟩

/-! The index register and memory (R152 to R155). -/

/-- Settles O38: the sum is one of 16-bit words, which `BitVec` addition takes modulo 65536. -/
theorem addToIndexWraps : Obligations.AddToIndexWraps := by
  intro x s
  refine ⟨encodedAs_addIVx x, _, exec_addIVx x s, ?_, State.advance_pc _, s.setIndex_advance_changesOnly _⟩
  rw [State.setIndex_advance_index, BitVec.toNat_add, BitVec.toNat_setWidth, Nat.add_mod_mod]

theorem glyphAddress_toNat (d : Fin 16) : (glyphAddress d).toNat = 5 * d.val := by
  simp only [glyphAddress, fontBase, glyphStride, BitVec.toNat_ofNat]
  omega

/-- Settles O39: the digit passes the check, and the address of its glyph fits a word. -/
theorem glyphAddressIsFiveTimesTheDigit : Obligations.GlyphAddressIsFiveTimesTheDigit := by
  intro x s h
  refine ⟨encodedAs_ldFVx x, _, exec_ldFVx_of_lt h, ?_, State.advance_pc _, s.setIndex_advance_changesOnly _⟩
  rw [State.setIndex_advance_index, glyphAddress_toNat]

/-- The bytes a reader sees after bytes were written inside a canonical memory: those bytes in their places, the old ones
elsewhere (R60). -/
theorem State.writeBytes_byteAt {s : State} {base : Nat} {bs : List Byte} (hm : s.mem.wf = true)
    (h : base + bs.length ≤ memSize) (a : Nat) :
    (s.setMem (s.mem.writeBytes base bs)).byteAt a =
      if base ≤ a ∧ a < base + bs.length then bs[a - base]? else s.byteAt a := by
  rw [State.setMem_byteAt, Memory.read_writeBytes bs _ _ _ hm h]
  by_cases hin : base ≤ a ∧ a < base + bs.length
  · rw [dif_pos hin, if_pos (show a < memSize by omega), if_pos hin, List.getElem?_eq_getElem]
  · rw [dif_neg hin, if_neg hin]
    rfl

/-- The bytes a reader sees after Fx33: the three digits in their places (R154). -/
theorem State.storeDigits_byteAt {s : State} {b : Byte} (hm : s.mem.wf = true) (h : s.index.toNat + 3 ≤ memSize)
    (a : Nat) :
    (s.setMem (s.mem.writeBytes s.index.toNat (bcdDigits b))).byteAt a =
      if a = s.index.toNat then some (BitVec.ofNat 8 (b.toNat / 100))
      else if a = s.index.toNat + 1 then some (BitVec.ofNat 8 (b.toNat / 10 % 10))
      else if a = s.index.toNat + 2 then some (BitVec.ofNat 8 (b.toNat % 10))
      else s.byteAt a := by
  rw [State.writeBytes_byteAt hm h, bcdDigits_length]
  by_cases hin : s.index.toNat ≤ a ∧ a < s.index.toNat + 3
  · rw [if_pos hin]
    obtain ⟨k, rfl⟩ := Nat.exists_eq_add_of_le hin.1
    have hk : k < 3 := by omega
    interval_cases k <;> simp [bcdDigits]
  · rw [if_neg hin, if_neg (by omega), if_neg (by omega), if_neg (by omega)]

/-- Settles O40: the three stored bytes are the decimal digits of Vx, and the store reaches no other address. -/
theorem bcdStoresThreeDigits : Obligations.BcdStoresThreeDigits := by
  intro x s hm hi
  have hi : s.index.toNat + 3 ≤ memSize := hi
  have hb := State.storeDigits_byteAt (b := s.reg x) hm hi
  have hlt := (s.reg x).isLt
  refine ⟨encodedAs_ldBVx x, _, exec_ldBVx_inside hi, ⟨BitVec.ofNat 8 ((s.reg x).toNat / 100),
    BitVec.ofNat 8 ((s.reg x).toNat / 10 % 10), BitVec.ofNat 8 ((s.reg x).toNat % 10), ?_, ?_, ?_, ?_, ?_, ?_⟩,
    fun a ha => ?_, State.advance_pc _, s.setMem_advance_changesOnly _⟩
  · rw [State.advance_byteAt, hb, if_pos rfl]
  · rw [State.advance_byteAt, hb, if_neg (by omega), if_pos rfl]
  · rw [State.advance_byteAt, hb, if_neg (by omega), if_neg (by omega), if_pos rfl]
  · rw [BitVec.toNat_ofNat]; omega
  · rw [BitVec.toNat_ofNat]; omega
  · simp only [BitVec.toNat_ofNat]; omega
  · rw [State.advance_byteAt, hb, if_neg (by omega), if_neg (by omega), if_neg (by omega)]

theorem State.byteAt_isSome {s : State} {a : Nat} (h : a < memSize) : ∃ b, s.byteAt a = some b :=
  ⟨_, if_pos h⟩

/-- Settles O42: Fetch reads the bytes a reader sees, and those are the stored digits where it meets them. -/
theorem storedBytesAreFetched : Obligations.StoredBytesAreFetched := by
  intro x s t p hm hi hp ht now
  have hi : s.index.toNat + 3 ≤ memSize := hi
  obtain rfl := Host.Outcome.next.inj ((exec_ldBVx_inside hi).symm.trans ht)
  have hnow : ∀ a, (s.setMem (s.mem.writeBytes s.index.toNat (bcdDigits (s.reg x)))).advance.byteAt a = now a :=
    State.storeDigits_byteAt hm hi
  obtain ⟨hi', hhi⟩ := State.byteAt_isSome (Nat.lt_of_succ_lt hp)
  obtain ⟨lo', hlo⟩ := State.byteAt_isSome hp
  exact ⟨hnow, hi', lo', hnow _ ▸ hhi, hnow _ ▸ hlo, State.fetch_of_byteAt hhi hlo⟩

/-- Settles O41: the bounds check passes, and the bytes read go to V0..Vx in order. -/
theorem loadRegistersReadsABlock : Obligations.LoadRegistersReadsABlock := by
  intro x s h
  have h : s.index.toNat + x.val < memSize := h
  refine ⟨encodedAs_ldVxMem x, _, exec_ldVxMem_inside h, fun k hk => ?_, fun k hk => ?_, ?_,
    s.setRegsFrom_spriteBytes_advance_changesOnly x⟩
  · rw [State.advance_reg, s.setRegsFrom_spriteBytes_reg x k, if_pos hk, State.byteAt,
      if_pos (by have := Fin.le_def.1 hk; omega)]
  · rw [State.advance_reg, s.setRegsFrom_spriteBytes_reg x k, if_neg (not_le.2 hk)]
  · rw [State.advance_pc, State.setRegsFrom_rest]

/-! The keypad (R191, R192, R194). -/

/-- Settles O47: Vx passes the check as the key k, and both instructions are `skipIf` on the level of that key. -/
theorem keySkipsFollowTheKeyLevel : Obligations.KeySkipsFollowTheKeyLevel := by
  intro x k s hk
  have hlt : (s.reg x).toNat < 16 := by omega
  obtain rfl : ⟨(s.reg x).toNat, hlt⟩ = k := Fin.ext hk
  refine ⟨⟨encodedAs_skp x, encodedAs_sknp x⟩,
    ⟨_, exec_skp_of_lt hlt, State.skipIf_pc _ _, s.skipIf_changesOnly_pc _⟩,
    ⟨_, exec_sknp_of_lt hlt, ?_, s.skipIf_changesOnly_pc _⟩⟩
  rw [State.skipIf_pc]
  cases s.key ⟨(s.reg x).toNat, hlt⟩ <;> rfl

theorem State.pressedKeys_of_pressed {s : State} {k : Key} (h : s.key k = true) :
    ∃ first rest, s.pressedKeys = first :: rest ∧ k ∈ first :: rest := by
  have hmem := State.mem_pressedKeys.2 h
  obtain ⟨first, rest, hp⟩ := List.exists_cons_of_ne_nil (List.ne_nil_of_mem hmem)
  exact ⟨first, rest, hp, hp ▸ hmem⟩

/-- Settles O49: with no key pressed the list of pressed keys is empty; otherwise the free choice picks one of it, and
each of it is the choice of some number. -/
theorem keyWaitTakesAPressedKeyOrWaits : Obligations.KeyWaitTakesAPressedKeyOrWaits := by
  refine ⟨fun x s => ⟨encodedAs_ldVxK x, exec_ldVxK_of_no_key x, fun ⟨k, hk⟩ => ?_⟩, fun s k hk => ?_⟩
  · obtain ⟨first, rest, hp, -⟩ := State.pressedKeys_of_pressed hk
    refine ⟨_, first, rest, hp, exec_ldVxK_of_pressed hp, State.mem_pressedKeys.1 (hp ▸ chooseKey_mem _ _ _), ?_, rfl,
      State.advance_pc _, s.setReg_countDraw_advance_changesOnly x _⟩
    rw [State.setReg_countDraw_advance_reg_self, BitVec.toNat_ofNat]
    omega
  · obtain ⟨first, rest, hp, hmem⟩ := State.pressedKeys_of_pressed hk
    obtain ⟨n, hn⟩ := exists_chooseKey hmem
    exact ⟨first, rest, n, hp, hn⟩

/-! The display (R172 to R174). -/

section Draw
variable (s : State) (x y : Reg) {bs : List Byte}

/-- A pixel after a draw of at most 32 rows: inverted exactly where the sprite covers it. -/
theorem State.drawSprite_pixel (h : bs.length ≤ 32) (px : Fin 64) (py : Fin 32) :
    (s.drawSprite x y bs).pixel px py =
      (s.pixel px py ^^ spriteCovers bs (s.reg x).toNat (s.reg y).toNat px py) := by
  have hcovers := mem_spritePixels_iff_covers bs (s.reg x).toNat (s.reg y).toNat px py h
  have htouch := (Drawing.foldl_touch _ ⟨s.fb, false⟩
    (nodup_spritePixels ((s.reg x).toNat % 64) ((s.reg y).toNat % 32) bs 0 (by omega))).1 px py
  simp only [State.drawSprite, State.setReg_pixel, State.setFb_pixel, Drawing.rows_eq_foldl]
  rw [htouch]
  simp only [hcovers, Bool.decide_eq_true]
  rfl

/-- VF after such a draw: the flag of a collision with the sprite. -/
theorem State.drawSprite_regF (h : bs.length ≤ 32) : ∃ collided : Bool,
    (s.drawSprite x y bs).reg regF = flagByte collided ∧
      (collided = true ↔ ∃ px py, s.pixel px py = true ∧
        spriteCovers bs (s.reg x).toNat (s.reg y).toNat px py = true) := by
  have htouch := (Drawing.foldl_touch _ ⟨s.fb, false⟩
    (nodup_spritePixels ((s.reg x).toNat % 64) ((s.reg y).toNat % 32) bs 0 (by omega))).2
  refine ⟨_, by simp only [State.drawSprite, State.setReg_reg, if_pos, Drawing.rows_eq_foldl], htouch.trans ?_⟩
  simp only [Bool.false_eq_true, false_or, Prod.exists, mem_spritePixels_iff_covers bs _ _ _ _ h]
  exact exists_congr fun px => exists_congr fun py => and_comm

end Draw

theorem flagByte_eq_one_iff (c : Bool) : flagByte c = 1 ↔ c = true := by
  cases c <;> decide

theorem flagByte_eq_zero_or_one (c : Bool) : flagByte c = 0 ∨ flagByte c = 1 := by
  cases c <;> decide

/-- The draw of a sprite that lies in memory, said once for the three statements about Dxyn. -/
theorem exec_drw_draws {n : Nat} {s : State} (x y : Reg) (hn : n < 16) (h : n = 0 ∨ s.index.toNat + n ≤ 4092) :
    ∃ t, exec (.drw x y n) s = .next t ∧ ChangesOnly [.pc, .fb] [regF] s t ∧ t.pc = s.pc + 2 ∧ t.mem = s.mem ∧
      (∀ px py, t.pixel px py =
        (s.pixel px py ^^ spriteCovers (s.spriteBytes n) (s.reg x).toNat (s.reg y).toNat px py)) ∧
      (t.reg regF = 0 ∨ t.reg regF = 1) ∧
      (t.reg regF = 1 ↔ ∃ px py, s.pixel px py = true ∧
        spriteCovers (s.spriteBytes n) (s.reg x).toNat (s.reg y).toNat px py = true) := by
  have hlen : (s.spriteBytes n).length ≤ 32 := by
    rw [State.spriteBytes, List.length_map, List.length_range]
    omega
  obtain ⟨collided, hvf, hcoll⟩ := s.drawSprite_regF x y hlen
  refine ⟨_, exec_drw_inside h, s.drawSprite_advance_changesOnly x y _, State.advance_pc _, rfl,
    s.drawSprite_pixel x y hlen, ?_, ?_⟩
  · rw [State.advance_reg, hvf]
    exact flagByte_eq_zero_or_one collided
  · rw [State.advance_reg, hvf, flagByte_eq_one_iff, hcoll]

/-- Settles O44: a set pixel is unset after the draw exactly when the sprite covers it. -/
theorem drawXorsTheSpriteAndReportsCollision : Obligations.DrawXorsTheSpriteAndReportsCollision := by
  intro x y n s hn h
  obtain ⟨t, ht, hframe, hpc, -, hpix, hflag, hcoll⟩ := exec_drw_draws x y hn h
  refine ⟨encodedAs_drw x y hn, t, ht, hpix, hflag, hcoll.trans ?_, hpc, hframe⟩
  refine exists_congr fun px => exists_congr fun py => and_congr_right fun hset => ?_
  rw [hpix, hset, Bool.true_xor, Bool.not_eq_false']

/-- Settles O45: on a clear screen no pixel is set, so the draw sets those of the sprite and meets none. -/
theorem drawOnAClearScreenShowsTheSprite : Obligations.DrawOnAClearScreenShowsTheSprite := by
  intro x y n s hn h
  have hclear : ∀ px py, (s.setFb Screen.clear).advance.pixel px py = false := fun px py => by
    rw [State.setFb_advance_pixel, Screen.clear_get]
  obtain ⟨t, ht, -, -, -, hpix, hflag, hcoll⟩ :=
    exec_drw_draws (s := (s.setFb Screen.clear).advance) x y hn h
  refine ⟨_, t, exec_cls s, ht, fun px py => ?_, hflag.resolve_right fun hone => ?_⟩
  · rw [hpix, hclear, Bool.false_xor]
    rfl
  · obtain ⟨px, py, hset, -⟩ := hcoll.1 hone
    exact Bool.false_ne_true ((hclear px py).symm.trans hset)

/-- Settles O46: the first draw leaves the coordinates and the sprite's bytes, so the second inverts the same pixels. -/
theorem drawingTwiceRestoresTheScreen : Obligations.DrawingTwiceRestoresTheScreen := by
  intro x y n s hx hy hn h
  obtain ⟨t, ht, hframe, -, hmem, hpix, -, -⟩ := exec_drw_draws x y hn h
  have hindex : t.index = s.index := hframe.index (by decide)
  have hbytes : t.spriteBytes n = s.spriteBytes n := by rw [State.spriteBytes, State.spriteBytes, hmem, hindex]
  have hcovers : spriteCovers (t.spriteBytes n) (t.reg x).toNat (t.reg y).toNat =
      spriteCovers (s.spriteBytes n) (s.reg x).toNat (s.reg y).toNat := by
    rw [hbytes, hframe.reg x (by simpa using hx), hframe.reg y (by simpa using hy)]
  obtain ⟨u, hu, -, -, -, hpix', -, hcoll'⟩ := exec_drw_draws (s := t) x y hn (hindex ▸ h)
  refine ⟨t, u, ht, hu, fun px py => ?_, hcovers ▸ hcoll'⟩
  rw [hpix', hcovers, hpix, Bool.xor_assoc, Bool.xor_self, Bool.xor_false]

/-! Who writes what (R21 to R33). -/

/-- Settles O50: a register that changes is in the instruction's footprint, and there VF is a flag or a destination. -/
theorem onlyFlagInstructionsWriteVf : Obligations.OnlyFlagInstructionsWriteVf := by
  intro i s t hi he hvf
  obtain ⟨code, info, rfl⟩ | hc := exec_cases hi he
  · exact absurd rfl hvf
  · have hmem : regF ∈ writtenRegs i := by
      by_contra hnot
      exact hvf (hc.reg regF hnot)
    cases i with
    | addVxVy | subVxVy | shrVxVy | drw => trivial
    | ldVxKk | addVxKk | ldVxVy | orVxVy | andVxVy | xorVxVy | rnd | ldVxDt | ldVxK =>
      exact (List.mem_singleton.1 hmem).symm
    | ldVxMem x =>
      have hle : regF ≤ x := by simpa [writtenRegs] using hmem
      exact le_antisymm (Fin.le_last x) hle
    | _ => exact absurd hmem List.not_mem_nil

/-- Settles O51: a part that changes is in the instruction's footprint, and each part stands in the footprints of its
writers only. -/
theorem eachPartHasItsWriters : Obligations.EachPartHasItsWriters := by
  intro i s t hi he
  obtain ⟨code, info, rfl⟩ | hc := exec_cases hi he
  · exact ⟨absurd rfl, absurd rfl, absurd rfl, absurd rfl, absurd rfl, absurd rfl, rfl⟩
  · exact ⟨fun h => index_mem_writtenParts.1 (not_not.1 (mt hc.index h)),
      fun h => (stack_mem_writtenParts.1 (not_not.1 (mt hc.stack h))).resolve_right (not_exists.2 hi),
      fun h => dt_mem_writtenParts.1 (not_not.1 (mt hc.dt h)),
      fun h => st_mem_writtenParts.1 (not_not.1 (mt hc.st h)),
      fun h => fb_mem_writtenParts.1 (not_not.1 (mt hc.fb_eq h)),
      fun h => mem_mem_writtenParts.1 (not_not.1 (mt hc.mem_eq h)),
      hc.keys_eq (keys_not_written i)⟩

/-- An instruction that enters a fault answers a state with the record. -/
theorem fault_ne_none_of_raiseOn {i : Instr} {s t : State} {code : FaultCode} {info : Nat}
    (he : exec i s = s.raiseOn i code info) (h : exec i s = .next t) : t.fault ≠ none := by
  obtain rfl := Host.Outcome.next.inj (he.symm.trans h)
  exact Option.some_ne_none _

/-- Settles O55: VF holds a flag byte last, or, after 8xy6 with x = F, the flag's zero bits. -/
theorem vfIsZeroOrOneAfterFlagInstructions : Obligations.VfIsZeroOrOneAfterFlagInstructions := by
  rintro i s t he - ht (⟨x, y, rfl⟩ | ⟨x, y, rfl⟩ | ⟨x, y, n, rfl⟩ | ⟨x, y, rfl, hx⟩)
  · obtain rfl := Host.Outcome.next.inj ((exec_addVxVy x y s).symm.trans he)
    rw [State.setReg_advance_reg_self]
    exact flagByte_eq_zero_or_one _
  · by_cases href : s.refusesAlias (x == regF) = true
    · exact absurd ht (fault_ne_none_of_raiseOn (exec_shrVxVy_refused href) he)
    · obtain rfl := Host.Outcome.next.inj ((exec_shrVxVy_runs href).symm.trans he)
      rw [State.advance_reg]
      by_cases hx : x = regF
      · exact .inl (hx ▸ s.shrThenFlag_regF_of_alias)
      · rw [s.shrThenFlag_regF hx]
        exact shiftedOutFlag_eq_zero_or_one _
  · by_cases hin : n = 0 ∨ s.index.toNat + n ≤ memSize
    · obtain rfl := Host.Outcome.next.inj ((exec_drw_inside hin).symm.trans he)
      rw [State.advance_reg, State.drawSprite, State.setReg_reg, if_pos rfl]
      exact flagByte_eq_zero_or_one _
    · exact absurd ht (fault_ne_none_of_raiseOn (exec_drw_outside (by omega) (by omega)) he)
  · by_cases href : s.refusesAlias (x == regF || y == regF) = true
    · exact absurd ht (fault_ne_none_of_raiseOn (exec_subVxVy_refused href) he)
    · obtain rfl := Host.Outcome.next.inj ((exec_subVxVy_runs href).symm.trans he)
      rw [State.advance_reg, s.subThenFlag_regF y hx]
      exact flagByte_eq_zero_or_one _

end Sys2Proof.Machine

/-! PROOFS. The statements about CALL in its three modes (R102, R105, R106, R249), and what they say of Step. -/

namespace Sys2Proof.Machine

/-! A call by CALL_MODE. -/

section CallByMode
variable {nnn : Word} {s : State}

theorem exec_call_flat (h : s.params.callMode = .flat) : exec (.call nnn) s = .next (s.enterCall nnn) := by
  simp only [exec, execCall, h]

theorem exec_call_nestedOneLevel (h : s.params.callMode = .nestedOneLevel) :
    exec (.call nnn) s = fetchExecute execUnnested (s.enterCall nnn) := by
  simp only [exec, execCall, h]

theorem exec_call_nestedRecursive (h : s.params.callMode = .nestedRecursive) :
    exec (.call nnn) s = runCallChain memSize (s.enterCall nnn) := by
  simp only [exec, execCall, h]

theorem runCallChain_succ (fuel : Nat) (t : State) :
    runCallChain (fuel + 1) t = fetchExecute (execInChain (runCallChain fuel)) t := rfl

/-- Under both nested modes a call is its push and jump, then fetch-and-run with a runner that gives every instruction
but CALL its top-level meaning (R102, R105). -/
theorem exec_call_nested (h : s.params.callMode ≠ .flat) : ∃ run : Instr → State → Result,
    (∀ i, (∀ n, i ≠ .call n) → ∀ u, run i u = exec i u) ∧
      exec (.call nnn) s = fetchExecute run (s.enterCall nnn) := by
  cases hmode : s.params.callMode with
  | flat => exact absurd hmode h
  | nestedOneLevel => exact ⟨_, fun _ hi => execUnnested_eq_exec hi, exec_call_nestedOneLevel hmode⟩
  | nestedRecursive =>
    exact ⟨_, fun _ hi => execInChain_eq_exec hi, (exec_call_nestedRecursive hmode).trans (runCallChain_succ 4091 _)⟩

/-- A call to an instruction that is no call, under both nested modes. -/
theorem exec_call_of_plain_target {w : Word} {i : Instr} (h : s.params.callMode ≠ .flat)
    (hf : (s.enterCall nnn).fetch = some w) (hd : decodeWord w = .ok i) (hi : ∀ m, i ≠ .call m) :
    exec (.call nnn) s = exec i (s.enterCall nnn) := by
  obtain ⟨run, hrun, hcall⟩ := exec_call_nested (nnn := nnn) h
  rw [hcall, fetchExecute_ok hf hd, hrun i hi]

end CallByMode

/-- Settles O30: under `flat` a call is its push and its jump. -/
theorem flatCallPushesAndJumps : Obligations.FlatCallPushesAndJumps := fun _ s hn hmode =>
  ⟨encodedAs_call hn, _, exec_call_flat hmode, rfl, rfl, s.setStack_setPc_changesOnly _ _⟩

/-- Settles O31: the nested instruction runs unnested, so a call there is a push and a jump. -/
theorem callRunsItsTargetInTheSameStep : Obligations.CallRunsItsTargetInTheSameStep := by
  intro nnn s w i hmode u hf hd
  refine ⟨exec_call_of_plain_target (by simp [hmode]) hf hd, ?_⟩
  rintro m rfl
  exact (exec_call_nestedOneLevel hmode).trans (fetchExecute_ok hf hd)

/-- Settles O32: the fault is entered by fetch-and-run at the target, after the push and the jump. -/
theorem nestedFetchAndDecodeFaultsKeepTheCall : Obligations.NestedFetchAndDecodeFaultsKeepTheCall := by
  intro nnn s hmode u
  obtain ⟨run, -, hcall⟩ := exec_call_nested (nnn := nnn) hmode
  exact ⟨fun hn => hcall.trans (fetchExecute_unfetchable (State.fetch_eq_none_of_le hn)),
    fun w hf hill => hcall.trans (fetchExecute_illegal hf hill)⟩

/-! RET after a call (R106). -/

/-- RET on the stack that a call at the pc of `s` left. -/
theorem exec_ret_after_call {s u : State} (h : u.stack = s.stack ++ [s.pc]) :
    ∃ v, exec .ret u = .next v ∧ v.pc = s.pc + 2 ∧ v.stack = s.stack ∧ ChangesOnly [.pc, .stack] [] u v :=
  ⟨_, exec_ret_of_append h, rfl, rfl, u.setStack_setPc_changesOnly _ _⟩

theorem exec_stack {i : Instr} {s t : State} (hi : ∀ n, i ≠ .call n) (hret : i ≠ .ret) (h : exec i s = .next t) :
    t.stack = s.stack := by
  obtain ⟨code, info, rfl⟩ | hc := exec_cases hi h
  · rfl
  · exact hc.stack fun hw => (stack_mem_writtenParts.1 hw).elim hret (not_exists.2 hi)

/-- Settles O35: a call leaves its own address on top of the stack, and its target, if it is neither a call nor RET,
leaves the stack. -/
theorem returnUndoesTheCall : Obligations.ReturnUndoesTheCall := by
  refine ⟨fun s u => exec_ret_after_call, fun nnn s t u hmode ht hu => ?_,
    fun nnn s t u w i hmode hf hd hi hret ht hu => ?_, fun nnn s hmode hf => ?_⟩
  · obtain rfl := Host.Outcome.next.inj ((exec_call_flat hmode).symm.trans ht)
    exact exec_ret_after_call hu
  · rw [exec_call_of_plain_target hmode hf hd hi] at ht
    exact exec_ret_after_call (hu.trans (exec_stack hi hret ht))
  · have hcall : exec (.call nnn) s = .next ((s.enterCall nnn).setStack s.stack |>.setPc (s.pc + 2)) :=
      (exec_call_of_plain_target hmode hf encodedAs_ret.2 nofun).trans (exec_ret_of_append rfl)
    exact ⟨_, hcall, rfl, rfl, s.setPc_changesOnly _⟩

/-! The modes against each other (D4): no instruction but CALL reads CALL_MODE. -/

/-- An outcome with another CALL_MODE in the state it answers. -/
def resultWithCallMode (m : CallMode) : Result → Result
  | .next t => .next (t.withCallMode m)
  | .fault f => .fault f
  | .refused r => .refused r

theorem State.setRegsFrom_withCallMode (m : CallMode) (bs : List Byte) : ∀ (s : State) (k : Nat),
    (s.withCallMode m).setRegsFrom k bs = (s.setRegsFrom k bs).withCallMode m := by
  induction bs with
  | nil => intros; rfl
  | cons b bs ih => intro s k; exact ih (s.setReg (Fin.ofNat 16 k) b) (k + 1)

theorem exec_withCallMode {i : Instr} (hi : ∀ n, i ≠ .call n) (m : CallMode) (s : State) :
    exec i (s.withCallMode m) = resultWithCallMode m (exec i s) := by
  cases i with
  | call n => exact absurd rfl (hi n)
  | cls | jp | seVxKk | sneVxKk | ldVxKk | addVxKk | ldVxVy | orVxVy | andVxVy | xorVxVy | addVxVy | ldI | rnd | ldVxDt
  | ldDtVx | ldStVx | addIVx => rfl
  | ret =>
    obtain h | ⟨below, r, h⟩ := s.stack.eq_nil_or_concat'
    · rw [exec_ret_of_empty h, exec_ret_of_empty (s := s.withCallMode m) h]; rfl
    · rw [exec_ret_of_append h, exec_ret_of_append (s := s.withCallMode m) h]; rfl
  | subVxVy x y =>
    by_cases h : s.refusesAlias (x == regF || y == regF) = true
    · rw [exec_subVxVy_refused h, exec_subVxVy_refused (s := s.withCallMode m) h]; rfl
    · rw [exec_subVxVy_runs h, exec_subVxVy_runs (s := s.withCallMode m) h]; rfl
  | shrVxVy x y =>
    by_cases h : s.refusesAlias (x == regF) = true
    · rw [exec_shrVxVy_refused h, exec_shrVxVy_refused (s := s.withCallMode m) h]; rfl
    · rw [exec_shrVxVy_runs h, exec_shrVxVy_runs (s := s.withCallMode m) h]; rfl
  | drw x y n =>
    by_cases h : n = 0 ∨ s.index.toNat + n ≤ memSize
    · rw [exec_drw_inside h, exec_drw_inside (s := s.withCallMode m) h]; rfl
    · have h0 : 0 < n := by omega
      have hout : memSize < s.index.toNat + n := by omega
      rw [exec_drw_outside h0 hout, exec_drw_outside (s := s.withCallMode m) h0 hout]; rfl
  | skp x =>
    obtain h | h := lt_or_ge (s.reg x).toNat 16
    · rw [exec_skp_of_lt h, exec_skp_of_lt (s := s.withCallMode m) h]; rfl
    · rw [exec_skp_of_ge h, exec_skp_of_ge (s := s.withCallMode m) h]; rfl
  | sknp x =>
    obtain h | h := lt_or_ge (s.reg x).toNat 16
    · rw [exec_sknp_of_lt h, exec_sknp_of_lt (s := s.withCallMode m) h]; rfl
    · rw [exec_sknp_of_ge h, exec_sknp_of_ge (s := s.withCallMode m) h]; rfl
  | ldFVx x =>
    obtain h | h := lt_or_ge (s.reg x).toNat 16
    · rw [exec_ldFVx_of_lt h, exec_ldFVx_of_lt (s := s.withCallMode m) h]; rfl
    · rw [exec_ldFVx_of_ge h, exec_ldFVx_of_ge (s := s.withCallMode m) h]; rfl
  | ldVxK x =>
    by_cases h : ∃ k, s.key k = true
    · obtain ⟨k, hk⟩ := h
      obtain ⟨first, rest, hp, -⟩ := State.pressedKeys_of_pressed hk
      rw [exec_ldVxK_of_pressed hp, exec_ldVxK_of_pressed (s := s.withCallMode m) hp]; rfl
    · have hno : ∀ k, s.key k = false := fun k => Bool.eq_false_iff.2 fun hk => h ⟨k, hk⟩
      rw [exec_ldVxK_of_no_key x hno, exec_ldVxK_of_no_key (s := s.withCallMode m) x hno]; rfl
  | ldBVx x =>
    obtain h | h := le_or_gt (s.index.toNat + 3) memSize
    · rw [exec_ldBVx_inside h, exec_ldBVx_inside (s := s.withCallMode m) h]; rfl
    · rw [exec_ldBVx_outside h, exec_ldBVx_outside (s := s.withCallMode m) h]; rfl
  | ldVxMem x =>
    obtain h | h := le_or_gt (s.index.toNat + (x.val + 1)) memSize
    · rw [exec_ldVxMem_inside h, exec_ldVxMem_inside (s := s.withCallMode m) h, State.setRegsFrom_withCallMode]; rfl
    · rw [exec_ldVxMem_outside h, exec_ldVxMem_outside (s := s.withCallMode m) h]; rfl

/-- What runs nested at depth 1 is what runs at depth 0 under `flat`. -/
theorem exec_withCallMode_flat (i : Instr) (s : State) :
    exec i (s.withCallMode .flat) = resultWithCallMode .flat (execUnnested i s) := by
  by_cases hi : ∃ n, i = .call n
  · obtain ⟨n, rfl⟩ := hi
    exact exec_call_flat rfl
  · have hi : ∀ n, i ≠ .call n := not_exists.1 hi
    rw [execUnnested_eq_exec hi, exec_withCallMode hi]

theorem fetchExecute_withCallMode_flat (s : State) :
    fetchExecute exec (s.withCallMode .flat) = resultWithCallMode .flat (fetchExecute execUnnested s) := by
  have hfetch : (s.withCallMode .flat).fetch = s.fetch := State.fetch_congr rfl rfl
  obtain ⟨hf, he⟩ | ⟨w, hf, hill, he⟩ | ⟨w, i, hf, hd, he⟩ := fetchExecute_cases execUnnested s
  · rw [he, fetchExecute_unfetchable (hfetch.trans hf)]; rfl
  · rw [he, fetchExecute_illegal (hfetch.trans hf) hill]; rfl
  · rw [he, fetchExecute_ok (hfetch.trans hf) hd, exec_withCallMode_flat]

/-! Totality: which runs answer a next state. -/

/-- Fetch-and-run answers a next state, or what its runner answers. -/
theorem fetchExecute_of_run {P : Result → Prop} {run : Instr → State → Result} {s : State}
    (hnext : ∀ t, P (.next t)) (hrun : ∀ i, P (run i s)) : P (fetchExecute run s) := by
  obtain ⟨-, he⟩ | ⟨_, -, -, he⟩ | ⟨_, i, -, -, he⟩ := fetchExecute_cases run s
  · rw [he]; exact hnext _
  · rw [he]; exact hnext _
  · rw [he]; exact hrun i

theorem execUnnested_answers_next (i : Instr) (s : State) : ∃ t, execUnnested i s = .next t := by
  by_cases hi : ∃ n, i = .call n
  · obtain ⟨n, rfl⟩ := hi
    exact ⟨_, rfl⟩
  · have hi : ∀ n, i ≠ .call n := not_exists.1 hi
    rw [execUnnested_eq_exec hi]
    exact exec_answers_next hi s

theorem fetchExecute_execUnnested_answers_next (s : State) : ∃ t, fetchExecute execUnnested s = .next t :=
  fetchExecute_of_run (P := fun o => ∃ t, o = .next t) (fun t => ⟨t, rfl⟩) (fun i => execUnnested_answers_next i s)

/-- Settles O36: the first flat Step is the push and the jump, and the second runs at depth 0 what the nested call runs
at depth 1. -/
theorem nestedCallStepIsTwoFlatSteps : Obligations.NestedCallStepIsTwoFlatSteps := by
  intro s w nnn hfault hmode hf hd
  obtain ⟨t, ht⟩ := fetchExecute_execUnnested_answers_next (s.enterCall nnn)
  refine ⟨t, (s.enterCall nnn).withCallMode .flat, ?_, ?_, ?_⟩
  · rw [step_of_faultFree hfault, fetchExecute_ok hf hd, exec_call_nestedOneLevel hmode, ht]
  · rw [step_of_faultFree (s := s.withCallMode .flat) hfault, fetchExecute_ok (s := s.withCallMode .flat) hf hd,
      exec_call_flat rfl]
    rfl
  · rw [step_of_faultFree (s := (s.enterCall nnn).withCallMode .flat) hfault, fetchExecute_withCallMode_flat, ht]
    rfl

/-- A next state, or the hang of `nested_recursive` (R249). -/
def AnswersOrHangs (o : Result) : Prop := (∃ t, o = .next t) ∨ o = .fault .endlessCallChain

theorem runCallChain_answersOrHangs (fuel : Nat) : ∀ s : State, AnswersOrHangs (runCallChain fuel s) := by
  induction fuel with
  | zero => exact fun _ => .inr rfl
  | succ fuel ih =>
    intro s
    refine fetchExecute_of_run (fun t => .inl ⟨t, rfl⟩) fun i => ?_
    by_cases hi : ∃ n, i = .call n
    · obtain ⟨n, rfl⟩ := hi
      exact ih (s.enterCall n)
    · have hi : ∀ n, i ≠ .call n := not_exists.1 hi
      rw [execInChain_eq_exec hi]
      exact .inl (exec_answers_next hi s)

theorem exec_answers_next_unless_recursive {s : State} (h : s.params.callMode ≠ .nestedRecursive) (i : Instr) :
    ∃ t, exec i s = .next t := by
  by_cases hi : ∃ n, i = .call n
  · obtain ⟨n, rfl⟩ := hi
    cases hmode : s.params.callMode with
    | flat => exact ⟨_, exec_call_flat hmode⟩
    | nestedOneLevel => exact exec_call_nestedOneLevel hmode ▸ fetchExecute_execUnnested_answers_next _
    | nestedRecursive => exact absurd hmode h
  · exact exec_answers_next (not_exists.1 hi) s

theorem exec_answersOrHangs (i : Instr) (s : State) : AnswersOrHangs (exec i s) := by
  by_cases hmode : s.params.callMode = .nestedRecursive
  · by_cases hi : ∃ n, i = .call n
    · obtain ⟨n, rfl⟩ := hi
      rw [exec_call_nestedRecursive hmode]
      exact runCallChain_answersOrHangs memSize _
    · exact .inl (exec_answers_next (not_exists.1 hi) s)
  · exact .inl (exec_answers_next_unless_recursive hmode i)

/-- Settles O54: fetch-and-run answers a next state or what the instruction answers, and only a chain of calls under
`nested_recursive` can answer anything else. -/
theorem stepOfARunningCoreAnswersNext : Obligations.StepOfARunningCoreAnswersNext := by
  intro s hfault
  rw [step_of_faultFree hfault]
  exact ⟨fun hmode => fetchExecute_of_run (P := fun o => ∃ t, o = .next t) (fun t => ⟨t, rfl⟩)
      (exec_answers_next_unless_recursive hmode),
    fetchExecute_of_run (P := AnswersOrHangs) (fun t => .inl ⟨t, rfl⟩) fun i => exec_answersOrHangs i s⟩

/-! The chain of calls under `nested_recursive`, and the bound on it (R102, R249, log entry 5). -/

/-- The word at `a` is a call of `b`. It depends on memory only, which no call writes. -/
def CallAt (s : State) (a b : Word) : Prop :=
  ∃ w, (s.setPc a).fetch = some w ∧ decodeWord w = .ok (.call b)

/-- The chain of calls from `m` never ends: `m` lies in a set of addresses each holding a call into the set. -/
def EndlessFrom (s : State) (m : Word) : Prop :=
  ∃ chain : Word → Prop, chain m ∧
    ∀ a, chain a → ∃ w b, (s.setPc a).fetch = some w ∧ decodeWord w = .ok (.call b) ∧ chain b

theorem runCallChain_call {fuel : Nat} {t : State} {b : Word} (h : CallAt t t.pc b) :
    runCallChain (fuel + 1) t = runCallChain fuel (t.enterCall b) := by
  obtain ⟨w, hf, hd⟩ := h
  rw [runCallChain_succ, fetchExecute_ok (s := t) hf hd]
  rfl

/-- An endless chain uses up any bound. -/
theorem EndlessFrom.runCallChain {t : State} (h : EndlessFrom t t.pc) (fuel : Nat) :
    runCallChain fuel t = .fault .endlessCallChain := by
  induction fuel generalizing t with
  | zero => rfl
  | succ fuel ih =>
    obtain ⟨chain, hpc, hchain⟩ := h
    obtain ⟨w, b, hf, hd, hb⟩ := hchain _ hpc
    rw [runCallChain_call ⟨w, hf, hd⟩]
    exact ih ⟨chain, hb, hchain⟩

/-- A chain that uses up its bound has that many calls, one after the other. -/
theorem calls_of_runCallChain_endless (fuel : Nat) : ∀ {t : State},
    runCallChain fuel t = .fault .endlessCallChain →
    ∃ c : Nat → Word, c 0 = t.pc ∧ ∀ j < fuel, CallAt t (c j) (c (j + 1)) := by
  induction fuel with
  | zero => exact fun {t} _ => ⟨fun _ => t.pc, rfl, fun j hj => absurd hj (Nat.not_lt_zero j)⟩
  | succ fuel ih =>
    intro t h
    rw [runCallChain_succ] at h
    obtain ⟨-, he⟩ | ⟨_, -, -, he⟩ | ⟨w, i, hf, hd, he⟩ := fetchExecute_cases (execInChain (runCallChain fuel)) t
    · cases he.symm.trans h
    · cases he.symm.trans h
    · rw [he] at h
      by_cases hi : ∃ n, i = .call n
      · obtain ⟨n, rfl⟩ := hi
        obtain ⟨c, hc0, hc⟩ := ih (t := t.enterCall n) h
        obtain rfl : c 0 = n := hc0
        refine ⟨fun | 0 => t.pc | j + 1 => c j, rfl, fun j hj => ?_⟩
        cases j with
        | zero => exact ⟨w, hf, hd⟩
        | succ j => exact hc j (Nat.lt_of_succ_lt_succ hj)
      · have hi : ∀ n, i ≠ .call n := not_exists.1 hi
        obtain ⟨u, hu⟩ := exec_answers_next hi t
        rw [execInChain_eq_exec hi, hu] at h
        cases h

/-- Of MEM_SIZE calls in a row two stand at one address, since a word can be fetched at MEM_SIZE - 1 addresses only; so
the calls up to the second of the two go round for ever. -/
theorem endlessFrom_of_calls {s : State} {c : Nat → Word} (h : ∀ j < memSize, CallAt s (c j) (c (j + 1))) :
    EndlessFrom s (c 0) := by
  have hmaps : ∀ j ∈ Finset.range memSize, (c j).toNat ∈ Finset.range 4091 := by
    intro j hj
    obtain ⟨w, hf, -⟩ := h j (Finset.mem_range.1 hj)
    exact Finset.mem_range.2 (Nat.lt_of_succ_lt_succ (State.fetch_eq_some.1 hf).1)
  obtain ⟨i, j, hij, hj, hc⟩ : ∃ i j, i < j ∧ j < memSize ∧ c i = c j := by
    obtain ⟨i, hi, j, hj, hne, hc⟩ := Finset.exists_ne_map_eq_of_card_lt_of_maps_to (by simp) hmaps
    have hc := BitVec.eq_of_toNat_eq hc
    obtain hlt | hlt := Nat.lt_or_gt_of_ne hne
    · exact ⟨i, j, hlt, Finset.mem_range.1 hj, hc⟩
    · exact ⟨j, i, hlt, Finset.mem_range.1 hi, hc.symm⟩
  refine ⟨fun a => ∃ n < j, a = c n, ⟨0, by omega, rfl⟩, ?_⟩
  rintro _ ⟨n, hn, rfl⟩
  obtain ⟨w, hf, hd⟩ := h n (hn.trans hj)
  refine ⟨w, _, hf, hd, ?_⟩
  by_cases hlast : n + 1 = j
  · exact ⟨i, hij, by rw [hlast, hc]⟩
  · exact ⟨n + 1, by omega, rfl⟩

/-- The bound finds the endless chains and no other. -/
theorem runCallChain_memSize_endless_iff {t : State} :
    runCallChain memSize t = .fault .endlessCallChain ↔ EndlessFrom t t.pc := by
  refine ⟨fun h => ?_, fun h => h.runCallChain memSize⟩
  obtain ⟨c, hc0, hc⟩ := calls_of_runCallChain_endless memSize h
  exact hc0 ▸ endlessFrom_of_calls hc

/-- A chain that ends within its bound ends in the same state under a larger one. -/
theorem runCallChain_succ_of_next (fuel : Nat) : ∀ {t t' : State},
    runCallChain fuel t = .next t' → runCallChain (fuel + 1) t = .next t' := by
  induction fuel with
  | zero => intro t t' h; cases h
  | succ fuel ih =>
    intro t t' h
    rw [runCallChain_succ] at h ⊢
    obtain ⟨hf, he⟩ | ⟨w, hf, hill, he⟩ | ⟨w, i, hf, hd, he⟩ :=
      fetchExecute_cases (execInChain (runCallChain fuel)) t
    · rw [fetchExecute_unfetchable hf, ← he, h]
    · rw [fetchExecute_illegal hf hill, ← he, h]
    · rw [fetchExecute_ok hf hd]
      rw [he] at h
      by_cases hi : ∃ n, i = .call n
      · obtain ⟨n, rfl⟩ := hi
        exact ih h
      · have hi : ∀ n, i ≠ .call n := not_exists.1 hi
        rw [execInChain_eq_exec hi] at h ⊢
        exact h

/-- So the bound is no restriction. -/
theorem runCallChain_memSize_succ (t : State) : runCallChain (memSize + 1) t = runCallChain memSize t := by
  obtain ⟨t', h⟩ | h := runCallChain_answersOrHangs memSize t
  · rw [h, runCallChain_succ_of_next memSize h]
  · rw [h, (runCallChain_memSize_endless_iff.1 h).runCallChain]

/-- Settles O33: a call of the chain takes one from the bound, and one more changes nothing. -/
theorem recursiveCallExecutesItsTarget : Obligations.RecursiveCallExecutesItsTarget := by
  intro nnn s w i hmode u hf hd
  by_cases hi : ∃ m, i = .call m
  · obtain ⟨m, rfl⟩ := hi
    calc exec (.call nnn) s = runCallChain memSize u := exec_call_nestedRecursive hmode
      _ = runCallChain (memSize + 1) u := (runCallChain_memSize_succ u).symm
      _ = runCallChain memSize (u.enterCall m) := runCallChain_call ⟨w, hf, hd⟩
      _ = exec (.call m) u := (exec_call_nestedRecursive (s := u) hmode).symm
  · exact exec_call_of_plain_target (by simp [hmode]) hf hd (not_exists.1 hi)

theorem exec_call_endless_iff {m : Word} {s : State} (h : s.params.callMode = .nestedRecursive) :
    exec (.call m) s = .fault .endlessCallChain ↔ EndlessFrom s m := by
  rw [exec_call_nestedRecursive h]
  exact runCallChain_memSize_endless_iff

/-- Settles O34: the bound finds the endless chains; a self-call, with a call of it, is a set of addresses closed under
calls. -/
theorem callToASelfCallHasNoResult : Obligations.CallToASelfCallHasNoResult := by
  refine ⟨fun m n s w hmode hf hd hm => (exec_call_endless_iff hmode).2 ?_, fun m s => exec_call_endless_iff⟩
  refine ⟨fun a => a = m ∨ a = n, .inl rfl, ?_⟩
  have hn : ∃ w b, (s.setPc n).fetch = some w ∧ decodeWord w = .ok (.call b) ∧ (b = m ∨ b = n) :=
    ⟨w, n, hf, hd, .inr rfl⟩
  rintro _ (rfl | rfl)
  · obtain rfl | ⟨w', hf', hd'⟩ := hm
    · exact hn
    · exact ⟨w', n, hf', hd', .inr rfl⟩
  · exact hn

/-! Faults are precise (R105, R211 to R213). -/

/-- From `s` to `t` by fault entry alone: the record has the pc of `s` and the word fetched there, if there is one. -/
def EntersFault (s t : State) : Prop :=
  ∃ r : FaultRecord, t = s.setFault (some r) ∧ r.pc = s.pc ∧ r.w = s.fetch

/-- An instruction other than CALL that ends in a fault enters it from the state before it; its word is the one
fetched, since decoding drops no bit. -/
theorem exec_entersFault {s t : State} {w : Word} {i : Instr} (hs : s.fault = none) (hf : s.fetch = some w)
    (hd : decodeWord w = .ok i) (hi : ∀ n, i ≠ .call n) (he : exec i s = .next t) (ht : t.fault ≠ none) :
    EntersFault s t := by
  obtain ⟨code, info, rfl⟩ | hc := exec_cases hi he
  · exact ⟨_, rfl, rfl, by rw [hf, ← encode_of_decodeWord hd]⟩
  · exact absurd ((hc.fault (fault_not_written i)).trans hs) ht

theorem fetchExecute_execUnnested_entersFault {s t : State} (hs : s.fault = none)
    (h : fetchExecute execUnnested s = .next t) (ht : t.fault ≠ none) : EntersFault s t := by
  obtain ⟨hf, he⟩ | ⟨w, hf, -, he⟩ | ⟨w, i, hf, hd, he⟩ := fetchExecute_cases execUnnested s
  · exact ⟨_, (Host.Outcome.next.inj (he.symm.trans h)).symm, rfl, hf.symm⟩
  · exact ⟨_, (Host.Outcome.next.inj (he.symm.trans h)).symm, rfl, hf.symm⟩
  · rw [he] at h
    by_cases hi : ∃ n, i = .call n
    · obtain ⟨n, rfl⟩ := hi
      obtain rfl := Host.Outcome.next.inj h
      exact absurd hs ht
    · have hi : ∀ n, i ≠ .call n := not_exists.1 hi
      exact exec_entersFault hs hf hd hi (execUnnested_eq_exec hi s ▸ h) ht

/-- From `s` to `t` by pushes, jumps and a fault entry: what a fault nested in calls leaves (R105). -/
def FaultsAfterPushes (s t : State) : Prop :=
  ∃ (pushed : List Word) (r : FaultRecord),
    t = { s with stack := s.stack ++ pushed, pc := r.pc, fault := some r } ∧ r.w = (s.setPc r.pc).fetch

theorem EntersFault.faultsAfterPushes {s t : State} (h : EntersFault s t) : FaultsAfterPushes s t := by
  obtain ⟨r, rfl, hpc, hw⟩ := h
  exact ⟨[], r, by rw [List.append_nil, hpc]; rfl, by rw [hw, hpc]; rfl⟩

theorem RunsTo.faultsAfterPushes {s t : State} (h : RunsTo s t) (hs : s.fault = none) (ht : t.fault ≠ none) :
    FaultsAfterPushes s t := by
  induction h with
  | faultEntry hpc hw => exact EntersFault.faultsAfterPushes ⟨_, rfl, hpc, hw⟩
  | plain hf hd hi he => exact (exec_entersFault hs hf hd hi he ht).faultsAfterPushes
  | jump hc =>
    obtain ⟨_, _, -, -, rfl⟩ := hc
    exact absurd hs ht
  | @nested s u t hc _ ih =>
    obtain ⟨_, nnn, -, -, rfl⟩ := hc
    obtain ⟨pushed, r, rfl, hw⟩ := ih hs ht
    refine ⟨s.pc :: pushed, r, ?_, hw⟩
    rw [State.enterCall_stack, List.append_assoc]
    rfl

/-- Settles O53: an instruction's own fault is entered from the state before it, and the calls above a nested fault
leave a push and a jump each. -/
theorem faultsArePrecise : Obligations.FaultsArePrecise := by
  refine ⟨fun i s t hs hi he ht => ?_, fun nnn s t hs he ht => ?_⟩
  · obtain ⟨code, info, rfl⟩ | hc := exec_cases hi he
    · exact ⟨_, rfl, rfl, rfl⟩
    · exact absurd ((hc.fault (fault_not_written i)).trans hs) ht
  · cases hmode : s.params.callMode with
    | flat =>
      obtain rfl := Host.Outcome.next.inj ((exec_call_flat hmode).symm.trans he)
      exact absurd hs ht
    | nestedOneLevel =>
      rw [exec_call_nestedOneLevel hmode] at he
      obtain ⟨r, rfl, hpc, hw⟩ := fetchExecute_execUnnested_entersFault (s := s.enterCall nnn) hs he ht
      exact ⟨[s.pc], r, by rw [hpc]; rfl, rfl, by rw [hw, hpc]; rfl, fun _ => ⟨rfl, hpc⟩, nofun⟩
    | nestedRecursive =>
      rw [exec_call_nestedRecursive hmode] at he
      obtain ⟨pushed, r, rfl, hw⟩ := (RunsTo.of_runCallChain memSize he).faultsAfterPushes hs ht
      refine ⟨s.pc :: pushed, r, ?_, rfl, hw, nofun, nofun⟩
      rw [State.enterCall_stack, List.append_assoc]
      rfl

/-! The stopped program (R226). -/

/-- Settles O60: the word at pc is the encoding of a jump to pc, and that jump answers its own state. -/
theorem aStoppedProgramStays : Obligations.AStoppedProgramStays := by
  rintro s ⟨hfault, hpc, hf⟩
  have hpc : s.pc.toNat < 0x1000 := Nat.lt_succ_of_le hpc
  have hword : BitVec.ofNat 16 (0x1000 + s.pc.toNat) = encode (.jp s.pc) := by
    rw [encode, encodeAddr, Nat.mod_eq_of_lt hpc]
  refine run_of_step_self (M := core) ?_
  calc step s = fetchExecute exec s := step_of_faultFree hfault
    _ = exec (.jp s.pc) s := fetchExecute_ok (hword ▸ hf) (encodedAs_jp hpc).2
    _ = .next s := rfl

end Sys2Proof.Machine

/-! PROOFS. The statements about memory as data, the reset state, Load and the host's operations (10_state.md section 9,
60_exceptions.md sections 3 and 4, 70_reset_and_hazards.md). -/

namespace Sys2Proof.Machine

/-! The canonical form of a memory is unique (log entry 6). -/

/-- Canonical form from `lo` on, taken apart at its first cell. -/
theorem Memory.wfFrom_cons_iff {lo k : Nat} {b : Byte} {m : Memory} :
    Memory.wfFrom lo ((k, b) :: m) = true ↔
      lo ≤ k ∧ k < memSize ∧ b ≠ Memory.unlisted k ∧ Memory.wfFrom (k + 1) m = true := by
  simp only [Memory.wfFrom, Bool.and_eq_true, decide_eq_true_eq, and_assoc]

/-- The first cell's address reads as no address below the first cell of another canonical memory does. -/
theorem Memory.first_le_of_read_eq {k k' : Nat} {b : Byte} {m m' : Memory} (hb : b ≠ Memory.unlisted k)
    (hwf' : Memory.wfFrom k' m' = true) (h : Memory.read ((k, b) :: m) k = m'.read k) : k' ≤ k := by
  by_contra hlt
  rw [Memory.read_below m' k' k hwf' (by omega), Memory.read, if_pos rfl] at h
  exact hb h

theorem Memory.eq_of_read_eq (m : Memory) : ∀ (lo : Nat) (m' : Memory), m.wfFrom lo = true → m'.wfFrom lo = true →
    (∀ a, m.read a = m'.read a) → m = m' := by
  induction m with
  | nil =>
    intro lo m' _ hwf' h
    cases m' with
    | nil => rfl
    | cons c m' =>
      obtain ⟨k', b'⟩ := c
      obtain ⟨-, -, hb', -⟩ := Memory.wfFrom_cons_iff.1 hwf'
      have hk := Memory.first_le_of_read_eq (k' := k' + 1) (m' := []) hb' rfl (h k').symm
      omega
  | cons c m ih =>
    obtain ⟨k, b⟩ := c
    intro lo m' hwf hwf' h
    obtain ⟨-, -, hb, hm⟩ := Memory.wfFrom_cons_iff.1 hwf
    cases m' with
    | nil =>
      have hk := Memory.first_le_of_read_eq (k' := k + 1) (m' := []) hb rfl (h k)
      omega
    | cons c' m' =>
      obtain ⟨k', b'⟩ := c'
      obtain ⟨-, hk', hb', hm'⟩ := Memory.wfFrom_cons_iff.1 hwf'
      obtain ⟨-, hk, -, -⟩ := Memory.wfFrom_cons_iff.1 hwf
      have hle := Memory.first_le_of_read_eq hb (Memory.wfFrom_cons_iff.2 ⟨le_rfl, hk', hb', hm'⟩) (h k)
      have hge := Memory.first_le_of_read_eq hb' (Memory.wfFrom_cons_iff.2 ⟨le_rfl, hk, hb, hm⟩) (h k').symm
      obtain rfl := Nat.le_antisymm hge hle
      obtain rfl : b = b' := by simpa [Memory.read] using h k
      refine congrArg _ (ih (k + 1) m' hm hm' fun a => ?_)
      by_cases ha : k = a
      · rw [Memory.read_below m (k + 1) a hm (by omega), Memory.read_below m' (k + 1) a hm' (by omega)]
      · simpa only [Memory.read, if_neg ha] using h a

/-- Settles O59: the first cells stand at the first address that does not read as if unlisted, so they are equal, and
the rest by induction. -/
theorem canonicalMemoriesThatReadAlikeAreEqual : Obligations.CanonicalMemoriesThatReadAlikeAreEqual := by
  intro m m' hm hm' h
  refine Memory.eq_of_read_eq m 0 m' hm hm' fun a => ?_
  obtain ha | ha := lt_or_ge a memSize
  · exact h a ha
  · rw [Memory.read_outside m 0 a hm ha, Memory.read_outside m' 0 a hm' ha]

/-! Reset and Initialize (R35, R240, R241). -/

theorem State.reset_byteAt_font {a : Nat} (h : a < 80) : State.reset.byteAt a = font[a]? := by
  have hlen : a < font.length := h
  rw [State.byteAt, if_pos (lt_trans h (by decide)), List.getElem?_eq_getElem hlen]
  exact congrArg some (List.getD_eq_getElem font 0 hlen)

theorem State.reset_byteAt_zero {a : Nat} (h : 80 ≤ a) (hm : a < memSize) : State.reset.byteAt a = some 0 := by
  rw [State.byteAt, if_pos hm]
  exact congrArg some (List.getD_eq_default font 0 h)

/-- Settles O1: nothing is listed in the memory of reset, so it reads as FONT below 80 and as 0 from there on. -/
theorem resetHoldsTheInitialValues : Obligations.ResetHoldsTheInitialValues := by
  refine ⟨fun r => ?_, rfl, rfl, rfl, rfl, rfl, Screen.clear_get, fun k => ?_, rfl, rfl,
    fun _ => State.reset_byteAt_font, fun _ => State.reset_byteAt_zero, fun a h => if_neg (not_lt.2 h)⟩
  · simp [State.reg, State.reset]
  · simp [State.key, State.reset]

/-- The default FONT is what memory reads as anyway, so Initialize lists no cell of it. -/
theorem writeBytes_font : Memory.writeBytes [] fontBase (font.take 80) = [] := by
  decide

theorem State.initial_default : State.initial defaultParams font = State.reset := by
  rw [State.initial, writeBytes_font]
  rfl

theorem State.initial_byteAt (p : Params) {f : List Byte} (h : f.length = 80) (a : Nat) :
    (State.initial p f).byteAt a = if a < 80 then f[a]? else State.reset.byteAt a := by
  have htake : f.take 80 = f := List.take_of_length_le h.le
  have hb := State.writeBytes_byteAt (s := State.reset) (base := fontBase) (bs := f.take 80) rfl
    (by rw [htake, h]; decide) a
  rw [htake, h] at hb
  refine Eq.trans ?_ (hb.trans ?_)
  · rw [State.initial, htake]
    rfl
  · simp

theorem State.initial_changesOnly (p : Params) (f : List Byte) :
    ChangesOnly [.mem, .params] [] State.reset (State.initial p f) :=
  ⟨fun _ _ => rfl, fun _ => rfl, fun _ => rfl, fun _ => rfl, fun _ => rfl, fun _ => rfl, fun _ _ _ => rfl,
    fun _ _ => rfl, fun h => absurd (.head _) h, fun _ => rfl, fun h => absurd (.tail _ (.head _)) h, fun _ => rfl⟩

/-! The parameters (log entry 2). -/

theorem RunsTo.params_eq {s t : State} (h : RunsTo s t) : t.params = s.params := by
  induction h with
  | faultEntry => rfl
  | plain _ _ hi he => exact exec_params hi he
  | jump hc => obtain ⟨_, _, -, -, rfl⟩ := hc; rfl
  | nested hc _ ih => obtain ⟨_, _, -, -, rfl⟩ := hc; exact ih

/-! The ticks (R218, R220, R248). -/

theorem ChangesOnly.refl (parts : List Part) (regs : List Reg) (s : State) : ChangesOnly parts regs s s := by
  constructor <;> intros <;> rfl

theorem State.tickDelay_changesOnly (s : State) : ChangesOnly [.dt] [] s s.tickDelay := by
  unfold State.tickDelay
  split
  · exact .refl _ _ s
  · constructor <;> simp

theorem State.tickSound_changesOnly (s : State) : ChangesOnly [.st] [] s s.tickSound := by
  unfold State.tickSound
  split
  · exact .refl _ _ s
  · constructor <;> simp

/-- ST after a tick. -/
theorem State.tickSound_st_toNat (s : State) : s.tickSound.st.toNat = s.st.toNat - 1 := by
  unfold State.tickSound
  split
  · simp [*]
  · simp only [State.setSt_st]
    bv_omega

theorem State.soundActive_iff (s : State) : s.soundActive = true ↔ s.st.toNat ≠ 0 := by
  rw [State.soundActive, bne_iff_ne]
  exact not_congr BitVec.toNat_inj.symm

/-- A CORE without a fault admits a host write (R215, R221). -/
theorem Session.guarded_of_faultFree {e : Session} (h : e.core.fault = none) (o : SessionResult) : e.guarded o = o := by
  simp only [Session.guarded, h]

theorem IsHostRun.dt_eq_first {sess : Nat → Session} {ops : Nat → HostOp} (hr : IsHostRun sess ops)
    (hs : StepsLeaveDt sess ops) (hno : ∀ n, ops n ≠ .tickDelay) (n : Nat) : (sess n).core.dt = (sess 0).core.dt := by
  induction n with
  | zero => rfl
  | succ n ih => exact (hr.dt_kept hs (hno n)).trans ih

/-- Under the fairness premise DT falls by a tick until it is 0: by induction on a bound of it. -/
theorem IsHostRun.exists_dt_eq_zero {sess : Nat → Session} {ops : Nat → HostOp} (hr : IsHostRun sess ops)
    (hs : StepsLeaveDt sess ops) (hk : KeepsStepping ops) (hfair : FairDelayTicks sess ops) (b : Nat) :
    ∀ n, (sess n).core.dt.toNat ≤ b → ∃ m, (sess m).core.dt = 0 := by
  induction b with
  | zero => exact fun n h => ⟨n, BitVec.eq_of_toNat_eq (Nat.le_zero.1 h)⟩
  | succ b ih =>
    intro n h
    obtain ⟨m, hnm, hstep⟩ := hk n
    by_cases hm : (sess m).core.dt = 0
    · exact ⟨m, hm⟩
    obtain ⟨k, hmk, htick | hzero⟩ := hfair m hstep hm
    · obtain ⟨d, rfl⟩ := Nat.exists_eq_add_of_le (hnm.trans hmk.le)
      have := hr.dt_le hs n d
      refine ih (n + d + 1) ?_
      rw [hr.dt_ticked htick]
      omega
    · exact ⟨k, hzero⟩

/-- Settles O4: a tick is one decrement, floored at 0; along a run only ticks move DT, and each Step with DT not 0 has
one to come. -/
theorem ticksDecrementTheirOwnTimer : Obligations.TicksDecrementTheirOwnTimer := by
  refine ⟨fun s => ⟨s.tickDelay_dt_toNat, s.tickDelay_changesOnly, s.tickSound_st_toNat, s.tickSound_changesOnly,
      s.soundActive_iff, ?_⟩,
    fun e h => ⟨Session.guarded_of_faultFree h _, Session.guarded_of_faultFree h _⟩,
    fun sess ops hr hs => ⟨hr.dt_eq_first hs, fun hk hfair => hr.exists_dt_eq_zero hs hk hfair _ 0 le_rfl⟩⟩
  rw [State.soundActive_iff, State.tickSound_st_toNat]
  omega

/-! KeySet and Load (R222, R242, R243). -/

theorem State.setKey_changesOnly (s : State) (k : Key) (p : Bool) : ChangesOnly [.keys] [] s (s.setKey k p) := by
  constructor <;> simp

/-- Settles O5: an index below 16 is a key, and KeySet is one write of it. -/
theorem keySetWritesOneKey : Obligations.KeySetWritesOneKey := by
  refine fun e i p hfault => ⟨fun h => ⟨e.core.setKey ⟨i, h⟩ p, ?_, ?_, fun k hk => ?_, e.core.setKey_changesOnly _ p⟩,
    fun h => ?_⟩
  · exact (Session.guarded_of_faultFree hfault _).trans (dif_pos h)
  · rw [State.setKey_key, if_pos rfl]
  · rw [State.setKey_key, if_neg fun heq => hk (congrArg Fin.val heq)]
  · exact (Session.guarded_of_faultFree hfault _).trans (dif_neg (not_lt.2 h))

theorem Session.load_initialized {e : Session} (h : e.phase = .initialized) (rom : List Byte) :
    e.load rom = .next { core := e.core.load rom, phase := .loaded } := by
  simp only [Session.load, h]

theorem Session.load_not_initialized {e : Session} (h : e.phase ≠ .initialized) (rom : List Byte) :
    e.load rom = .refused .loadNotAtLaunch := by
  unfold Session.load
  split
  · exact absurd ‹_› h
  · rfl
  · rfl

/-- Step answers a session only when step answers a state, and the launch is over then. -/
theorem Session.phase_of_afterStep {o : Result} {e' : Session} (h : Session.afterStep o = .next e') :
    e'.phase = .running := by
  unfold Session.afterStep at h
  split at h <;> cases h
  rfl

/-- Settles O6: Load tests the phase, and every host operation tests the fault field. -/
theorem loadOnlyAtLaunchAndNoMoveAfterAFault : Obligations.LoadOnlyAtLaunchAndNoMoveAfterAFault := by
  refine ⟨fun e rom hfault => ⟨fun h => ?_, fun h => ?_⟩, fun e e' h => Session.phase_of_afterStep h,
    fun e op r hfault e' h => ?_⟩
  · exact (Session.guarded_of_faultFree hfault _).trans (Session.load_initialized h rom)
  · exact (Session.guarded_of_faultFree hfault _).trans (Session.load_not_initialized h rom)
  · obtain ⟨-, hstep⟩ | ⟨hnone, -⟩ := Session.perform_cases h
    · cases (step_of_fault hfault).symm.trans hstep
    · cases hfault.symm.trans hnone

/-- What Load copies ends inside memory. -/
theorem loaded_bytes_fit (rom : List Byte) : 0x200 + (rom.take 3580).length ≤ 4092 := by
  rw [List.length_take]
  omega

/-- The bytes a reader sees after Load (R242). -/
theorem State.load_byteAt {s : State} (hm : s.mem.wf = true) (rom : List Byte) (a : Nat) :
    (s.load rom).byteAt a =
      if 0x200 ≤ a ∧ a < 0x200 + min rom.length 3580 then rom[a - 0x200]? else s.byteAt a := by
  have hb := State.writeBytes_byteAt hm (loaded_bytes_fit rom) a
  rw [List.length_take, Nat.min_comm] at hb
  refine Eq.trans hb ?_
  by_cases hin : 0x200 ≤ a ∧ a < 0x200 + min rom.length 3580
  · rw [if_pos hin, if_pos hin]
    exact List.getElem?_take_of_lt (by omega)
  · rw [if_neg hin, if_neg hin]

/-- Settles O3: the image cut to 3580 bytes is written from 0x200 on, inside memory. -/
theorem loadCopiesTheRomAndTruncates : Obligations.LoadCopiesTheRomAndTruncates := by
  intro s rom hm
  refine ⟨fun k hlen hk => ?_, fun a ha => ?_, by constructor <;> simp [State.load]⟩
  · rw [State.load_byteAt hm, if_pos (by omega), Nat.add_sub_cancel_left]
  · rw [State.load_byteAt hm, if_neg (by omega)]

/-- Settles O2: the bytes of FONT are written at 0, the defaults' bytes are what reset reads as, and neither a Step nor
a host operation writes the parameters. -/
theorem initializeInstallsFontAndDefaultsGiveReset : Obligations.InitializeInstallsFontAndDefaultsGiveReset := by
  refine ⟨rfl, State.initial_default,
    fun p f h => ⟨rfl, State.initial_byteAt p h, State.initial_changesOnly p f⟩,
    fun s t h => (step_cases h).2.params_eq, fun e e' op h => ?_⟩
  obtain ⟨-, hstep⟩ | ⟨-, ⟨rom, -, hcore⟩ | ⟨-, hcore⟩ | ⟨-, hcore⟩ | ⟨k, p, -, hcore⟩⟩ := Session.perform_cases h
  · exact (step_cases hstep).2.params_eq
  · rw [hcore]; rfl
  · rw [hcore]; exact e.core.tickDelay_changesOnly.params (by decide)
  · rw [hcore]; exact e.core.tickSound_changesOnly.params (by decide)
  · rw [hcore]; rfl

/-! The invariant at reset and under the host's operations. -/

theorem State.load_inv {s : State} (h : s.Inv) (rom : List Byte) : (s.load rom).Inv :=
  ⟨Memory.wf_writeBytes _ _ _ h.1 (loaded_bytes_fit rom), h.2⟩

theorem State.tickDelay_inv {s : State} (h : s.Inv) : s.tickDelay.Inv := by
  unfold State.tickDelay
  split <;> exact h

theorem State.tickSound_inv {s : State} (h : s.Inv) : s.tickSound.Inv := by
  unfold State.tickSound
  split <;> exact h

theorem State.reset_inv : State.reset.Inv :=
  ⟨Memory.wf_nil, by decide, fun _ hr => absurd hr List.not_mem_nil⟩

/-- Settles O56: reset lists no memory and has an empty stack, and Load writes inside memory. -/
theorem invariantHoldsAtReset : Obligations.InvariantHoldsAtReset :=
  ⟨State.reset_inv, State.load_inv State.reset_inv⟩

/-- Settles O58: Step keeps the invariant, Load writes inside memory, and the ticks and KeySet write none of its
parts. -/
theorem hostOperationsKeepTheInvariant : Obligations.HostOperationsKeepTheInvariant := by
  intro e e' op hinv h
  obtain ⟨-, hstep⟩ | ⟨-, ⟨rom, -, hcore⟩ | ⟨-, hcore⟩ | ⟨-, hcore⟩ | ⟨k, p, -, hcore⟩⟩ := Session.perform_cases h
  · exact stepKeepsTheInvariant _ _ hinv hstep
  · exact hcore ▸ State.load_inv hinv rom
  · exact hcore ▸ State.tickDelay_inv hinv
  · exact hcore ▸ State.tickSound_inv hinv
  · rw [hcore]; exact hinv

end Sys2Proof.Machine
